-- ==== Sys2Proof/Word.lean ====
section
/-! DEFINITION. The word types of becpu (rules R8, R9, R26): bytes, opcode nibbles and the address register's type. -/

namespace Sys2Proof

/-- A byte of memory or the accumulator: 8 bits in every mode (R9, R26). -/
abbrev Byte := BitVec 8

/-- The 4-bit opcode field (R9, R61). -/
abbrev Nibble := BitVec 4

/-- An address register wide enough for the widest mode: 20 bits (R21, R23).
In modes 4 and 12 the invariant `IP < 2^W` (Safety.lean) keeps the upper bits 0. -/
abbrev Addr := BitVec 20

end Sys2Proof
end

