-- ==== Sys2Proof/Config.lean ====
section
/-! DEFINITION. The address-width mode and what follows from it (R6, R20, R21), and the implementation parameters of R7. -/

namespace Sys2Proof

/-- The address-width mode `W`, "one of {4, 12, 20} bits"; no other value is legal (R20, U8). -/
inductive Mode where
  | w4
  | w12
  | w20
deriving DecidableEq, Repr

/-- `W` as a number (R20). -/
def Mode.width : Mode → Nat
  | .w4 => 4
  | .w12 => 12
  | .w20 => 20

/-- `B = ceil((W + 4) / 8)`, the instruction width in bytes (R21). -/
def Mode.instrBytes (W : Mode) : Nat := (W.width + 4 + 7) / 8

/-- `2^W`, the size of memory in bytes (R21, R30). -/
def Mode.memSize (W : Mode) : Nat := 2 ^ W.width

/-- The mode a container's header byte 2 names; `none` for every illegal value (R20, R187, R80). -/
def Mode.ofNumber : Nat → Option Mode
  | 4 => some .w4
  | 12 => some .w12
  | 20 => some .w20
  | _ => none

/-- `ACC_RESET` (R7, R28). DESIGN CHOICE (the spec's own, D3; log 2), unsafe. -/
def Config.accReset : Byte := 0x00#8

/-- What a byte of memory that nothing has written reads as: the image is "zero-initialized" (R30, U15). -/
def Config.unlistedByte : Byte := 0x00#8

/-- The mode of `State.reset`, where no container is given. DESIGN CHOICE (log 1), unsafe. -/
def Config.resetMode : Mode := .w12

/-- `LITERAL_MAX`, the largest literal the assembler accepts (R7, R81). DESIGN CHOICE (the spec's own, D20; log 11), safe. -/
def Config.literalMax : Nat := 2 ^ 32 - 1

end Sys2Proof
end

