-- ==== Sys2Proof/Syntax.lean ====
section
/-! DEFINITION. Syntax: the nine opcodes, the instructions (one constructor per row of spec/opcode_table.json), the outputs
of the decoder, and the syntax around the core: container records, loader errors, assembler tokens, lines, blocks, errors. -/

namespace Sys2Proof

/-- The nine symbolic opcodes (R66). -/
inductive Op where
  | nop
  | lda
  | add
  | sub
  | sta
  | ldi
  | jmp
  | out
  | hlt
deriving DecidableEq, Repr

/-- An instruction: one constructor per row of spec/opcode_table.json, the 16 nibble values (R66, R67; the unmapped
seven under the names of D18) in each of the formats M4, M12, M20 (R61). The argument is the operand `x`, `W` bits (R63). -/
inductive Instr where
  | nopM4 (x : BitVec 4)
  | ldaM4 (x : BitVec 4)
  | addM4 (x : BitVec 4)
  | subM4 (x : BitVec 4)
  | staM4 (x : BitVec 4)
  | ldiM4 (x : BitVec 4)
  | jmpM4 (x : BitVec 4)
  | unmapped7M4 (x : BitVec 4)
  | unmapped8M4 (x : BitVec 4)
  | unmapped9M4 (x : BitVec 4)
  | unmappedAM4 (x : BitVec 4)
  | unmappedBM4 (x : BitVec 4)
  | unmappedCM4 (x : BitVec 4)
  | unmappedDM4 (x : BitVec 4)
  | outM4 (x : BitVec 4)
  | hltM4 (x : BitVec 4)
  | nopM12 (x : BitVec 12)
  | ldaM12 (x : BitVec 12)
  | addM12 (x : BitVec 12)
  | subM12 (x : BitVec 12)
  | staM12 (x : BitVec 12)
  | ldiM12 (x : BitVec 12)
  | jmpM12 (x : BitVec 12)
  | unmapped7M12 (x : BitVec 12)
  | unmapped8M12 (x : BitVec 12)
  | unmapped9M12 (x : BitVec 12)
  | unmappedAM12 (x : BitVec 12)
  | unmappedBM12 (x : BitVec 12)
  | unmappedCM12 (x : BitVec 12)
  | unmappedDM12 (x : BitVec 12)
  | outM12 (x : BitVec 12)
  | hltM12 (x : BitVec 12)
  | nopM20 (x : BitVec 20)
  | ldaM20 (x : BitVec 20)
  | addM20 (x : BitVec 20)
  | subM20 (x : BitVec 20)
  | staM20 (x : BitVec 20)
  | ldiM20 (x : BitVec 20)
  | jmpM20 (x : BitVec 20)
  | unmapped7M20 (x : BitVec 20)
  | unmapped8M20 (x : BitVec 20)
  | unmapped9M20 (x : BitVec 20)
  | unmappedAM20 (x : BitVec 20)
  | unmappedBM20 (x : BitVec 20)
  | unmappedCM20 (x : BitVec 20)
  | unmappedDM20 (x : BitVec 20)
  | outM20 (x : BitVec 20)
  | hltM20 (x : BitVec 20)
deriving DecidableEq, Repr

/-- The mode whose format an instruction is written in (R60, R61). -/
def Instr.mode : Instr → Mode
  | .nopM4 _ | .ldaM4 _ | .addM4 _ | .subM4 _ | .staM4 _ | .ldiM4 _ | .jmpM4 _ | .unmapped7M4 _
  | .unmapped8M4 _ | .unmapped9M4 _ | .unmappedAM4 _ | .unmappedBM4 _ | .unmappedCM4 _ | .unmappedDM4 _ | .outM4 _ | .hltM4 _ => .w4
  | .nopM12 _ | .ldaM12 _ | .addM12 _ | .subM12 _ | .staM12 _ | .ldiM12 _ | .jmpM12 _ | .unmapped7M12 _
  | .unmapped8M12 _ | .unmapped9M12 _ | .unmappedAM12 _ | .unmappedBM12 _ | .unmappedCM12 _ | .unmappedDM12 _ | .outM12 _ | .hltM12 _ => .w12
  | .nopM20 _ | .ldaM20 _ | .addM20 _ | .subM20 _ | .staM20 _ | .ldiM20 _ | .jmpM20 _ | .unmapped7M20 _
  | .unmapped8M20 _ | .unmapped9M20 _ | .unmappedAM20 _ | .unmappedBM20 _ | .unmappedCM20 _ | .unmappedDM20 _ | .outM20 _ | .hltM20 _ => .w20

/-- The operand of an instruction as a number, `0 <= x < 2^W` (R63). -/
def Instr.operand : Instr → Nat
  | .nopM4 x | .ldaM4 x | .addM4 x | .subM4 x | .staM4 x | .ldiM4 x | .jmpM4 x | .unmapped7M4 x
  | .unmapped8M4 x | .unmapped9M4 x | .unmappedAM4 x | .unmappedBM4 x | .unmappedCM4 x | .unmappedDM4 x | .outM4 x | .hltM4 x => x.toNat
  | .nopM12 x | .ldaM12 x | .addM12 x | .subM12 x | .staM12 x | .ldiM12 x | .jmpM12 x | .unmapped7M12 x
  | .unmapped8M12 x | .unmapped9M12 x | .unmappedAM12 x | .unmappedBM12 x | .unmappedCM12 x | .unmappedDM12 x | .outM12 x | .hltM12 x => x.toNat
  | .nopM20 x | .ldaM20 x | .addM20 x | .subM20 x | .staM20 x | .ldiM20 x | .jmpM20 x | .unmapped7M20 x
  | .unmapped8M20 x | .unmapped9M20 x | .unmappedAM20 x | .unmappedBM20 x | .unmappedCM20 x | .unmappedDM20 x | .outM20 x | .hltM20 x => x.toNat

/-- The outputs of DECODE (R101, R104): the opcode, the raw opcode nibble, whether the nibble names an opcode (`nib` and
`mapped` are the spec's additions for observability, D13), and the operand as a number. -/
structure Decoded where
  op : Op
  nib : Nibble
  mapped : Bool
  x : Nat
deriving DecidableEq, Repr

/-- The nine select outputs of DECODE (R112; a presentation of `op`, D22). -/
structure SelectLines where
  selNop : Bool
  selLda : Bool
  selAdd : Bool
  selSub : Bool
  selSta : Bool
  selLdi : Bool
  selJmp : Bool
  selOut : Bool
  selHlt : Bool
deriving DecidableEq, Repr

/-- Why a list of bytes is not an instruction. The spec's DECODE has no error (R105); it takes exactly `B` bytes, so the
one thing the decoder over lists can reject is a list with fewer (log 17). A fetch never gives one. -/
inductive DecodeReject where
  /-- Raised by `decode` alone on fewer than `B` bytes; safe. -/
  | tooShort
deriving DecidableEq, Repr

/-! ### The container and the loader (R184 to R190) -/

/-- A block record of the container: an address and a payload (R186). -/
structure Record where
  addr : Nat
  payload : List Byte
deriving DecidableEq, Repr

/-- The loader's errors (R190). They happen before any machine state exists; none is a fault of the machine (R166). -/
inductive LoadError where
  /-- Marker mismatch or truncated header. -/
  | headerError
  /-- Mode byte not 4, 12 or 20. -/
  | addressWidthError
  /-- A block exceeds the memory image (R189). -/
  | memoryRangeError
  /-- A partial trailing record. -/
  | ioError
deriving DecidableEq, Repr

/-! ### The assembler's source (R80 to R92) -/

/-- The assembler's errors (R90, R166), but for `IOError`, which belongs to the file handling that R5 leaves out. -/
inductive AsmError where
  | numberFormatError
  | opcodeError
  | lineError
  | addressError
  | blockError
  | addressWidthError
deriving DecidableEq, Repr

/-- A token of the source: a white-space-delimited word or a delimiter of the block grammar (R82, R86). There is no token
for the end of a source line: a line break only separates words, so it neither ends nor spoils a statement. Whether a
statement may span source lines the spec does not say (N23). DESIGN CHOICE (log 23), unsafe. -/
inductive Token where
  | word (cs : List Char)
  | semicolon
  | openBrace
  | closeBrace
deriving DecidableEq, Repr

/-- A classified source line (R82): an instruction with its operand as written, or a raw data byte. -/
inductive Line where
  | instruction (op : Op) (x : Nat)
  | raw (v : Byte)
deriving DecidableEq, Repr

/-- A source block: an address and its lines in order (R86, R88). -/
structure Block where
  addr : Nat
  lines : List Line
deriving DecidableEq, Repr

/-- What assembling a source gives: the mode once it is read, the blocks written so far (each is written as it is
parsed, R90 and C7), and the error that ended the run, if any. -/
structure AsmResult where
  mode : Option Mode
  blocks : List Block
  error : Option AsmError
deriving DecidableEq, Repr

end Sys2Proof
end

