-- ==== Sys2Proof/WellFormed.lean ====
section
/-! DEFINITION. Which terms are instructions of a machine in mode `W`, and which records fit its memory. -/

namespace Sys2Proof

/-- There is one format per mode (R60, R71): an instruction of a machine in mode `W` is in `W`'s format. Its operand has
exactly `W` bits by its type, and every operand value is legal (R63, R70), so there is nothing else to check. -/
def Instr.wellFormed (W : Mode) (i : Instr) : Bool := decide (i.mode = W)

/-- The loader's range check: `address + length <= 2^W` (R189). -/
def Record.fits (W : Mode) (r : Record) : Bool := decide (r.addr + r.payload.length ≤ W.memSize)

end Sys2Proof
end

