-- ==== Sys2Proof/Decode.lean ====
section
/-! DEFINITION. The instruction codec: the opcode table (R108), DECODE (R104), the decoder from bytes to `Instr`, then
ENCODE (R102) and the encoder of `Instr`, and the three format tables of R61. -/

namespace Sys2Proof

/-! ### The opcode table -/

/-- `code(op)`, the 4-bit code of an opcode (R66, R108). -/
def Op.code : Op → Nibble
  | .nop => 0x0#4
  | .lda => 0x1#4
  | .add => 0x2#4
  | .sub => 0x3#4
  | .sta => 0x4#4
  | .ldi => 0x5#4
  | .jmp => 0x6#4
  | .out => 0xE#4
  | .hlt => 0xF#4

/-- `opcode_of(nib)`, undefined for 0x7 to 0xD (R108). -/
def opcodeOf (n : Nibble) : Option Op :=
  match n.toNat with
  | 0 => some .nop
  | 1 => some .lda
  | 2 => some .add
  | 3 => some .sub
  | 4 => some .sta
  | 5 => some .ldi
  | 6 => some .jmp
  | 14 => some .out
  | 15 => some .hlt
  | _ => none

/-! ### Bytes and numbers, most significant byte first (R42, R61) -/

/-- `b0 ‖ b1 ‖ ...` as one number, `b0` most significant (R61). -/
def packBytes (bs : List Byte) : Nat := bs.foldl (fun n b => n * 256 + b.toNat) 0

/-- The `n` bytes of the number `I`, `b[i] = I[8*(n-i)-1 : 8*(n-1-i)]`, so `b[0]` is the most significant (R102). -/
def unpackBytes (n I : Nat) : List Byte :=
  (List.range n).map fun i => BitVec.ofNat 8 (I >>> (8 * (n - 1 - i)))

/-! ### DECODE -/

/-- DECODE (R104). Only the first `B` bytes take part (R113). An unmapped nibble gives NOP, never an error (R105). -/
def codecDecode (W : Mode) (bs : List Byte) : Decoded :=
  let B := W.instrBytes
  let I := packBytes (bs.take B)
  let nib := BitVec.ofNat 4 (I >>> (8 * B - 4))
  let F := I % 2 ^ (8 * B - 4)
  { op := (opcodeOf nib).getD .nop
    nib := nib
    mapped := (opcodeOf nib).isSome
    x := F % 2 ^ W.width }

/-- The nine select lines of DECODE (R112). -/
def Decoded.select (d : Decoded) : SelectLines :=
  { selNop := d.op == .nop
    selLda := d.op == .lda
    selAdd := d.op == .add
    selSub := d.op == .sub
    selSta := d.op == .sta
    selLdi := d.op == .ldi
    selJmp := d.op == .jmp
    selOut := d.op == .out
    selHlt := d.op == .hlt }

/-- The row of the opcode table that a nibble selects in format M4, with its operand (R66, R67). -/
def instrOfM4 (nib : Nibble) (x : BitVec 4) : Instr :=
  match nib.toNat with
  | 0 => .nopM4 x
  | 1 => .ldaM4 x
  | 2 => .addM4 x
  | 3 => .subM4 x
  | 4 => .staM4 x
  | 5 => .ldiM4 x
  | 6 => .jmpM4 x
  | 7 => .unmapped7M4 x
  | 8 => .unmapped8M4 x
  | 9 => .unmapped9M4 x
  | 10 => .unmappedAM4 x
  | 11 => .unmappedBM4 x
  | 12 => .unmappedCM4 x
  | 13 => .unmappedDM4 x
  | 14 => .outM4 x
  | _ => .hltM4 x

/-- The row of the opcode table that a nibble selects in format M12, with its operand (R66, R67). -/
def instrOfM12 (nib : Nibble) (x : BitVec 12) : Instr :=
  match nib.toNat with
  | 0 => .nopM12 x
  | 1 => .ldaM12 x
  | 2 => .addM12 x
  | 3 => .subM12 x
  | 4 => .staM12 x
  | 5 => .ldiM12 x
  | 6 => .jmpM12 x
  | 7 => .unmapped7M12 x
  | 8 => .unmapped8M12 x
  | 9 => .unmapped9M12 x
  | 10 => .unmappedAM12 x
  | 11 => .unmappedBM12 x
  | 12 => .unmappedCM12 x
  | 13 => .unmappedDM12 x
  | 14 => .outM12 x
  | _ => .hltM12 x

/-- The row of the opcode table that a nibble selects in format M20, with its operand (R66, R67). -/
def instrOfM20 (nib : Nibble) (x : BitVec 20) : Instr :=
  match nib.toNat with
  | 0 => .nopM20 x
  | 1 => .ldaM20 x
  | 2 => .addM20 x
  | 3 => .subM20 x
  | 4 => .staM20 x
  | 5 => .ldiM20 x
  | 6 => .jmpM20 x
  | 7 => .unmapped7M20 x
  | 8 => .unmapped8M20 x
  | 9 => .unmapped9M20 x
  | 10 => .unmappedAM20 x
  | 11 => .unmappedBM20 x
  | 12 => .unmappedCM20 x
  | 13 => .unmappedDM20 x
  | 14 => .outM20 x
  | _ => .hltM20 x

/-- The row of the opcode table that mode and nibble select; no row is selected by operand bits (R67). -/
def instrOf (W : Mode) (nib : Nibble) (x : Nat) : Instr :=
  match W with
  | .w4 => instrOfM4 nib (BitVec.ofNat 4 x)
  | .w12 => instrOfM12 nib (BitVec.ofNat 12 x)
  | .w20 => instrOfM20 nib (BitVec.ofNat 20 x)

/-- The instruction that the `B` bytes of a fetch are, with exactly DECODE's layout (R109, R123). -/
def decodeFetched (W : Mode) (bs : List Byte) : Instr :=
  instrOf W (codecDecode W bs).nib (codecDecode W bs).x

/-- The decoder over any list of bytes: the instruction at its head in mode `W` and the bytes after it, or a rejection
by name when the list holds fewer than `B` bytes. -/
def decode (W : Mode) (bs : List Byte) : Except DecodeReject (Instr × List Byte) :=
  if bs.length < W.instrBytes then .error .tooShort
  else .ok (decodeFetched W bs, bs.drop W.instrBytes)

/-! ### ENCODE -/

/-- The `B` bytes of an opcode nibble and an operand: `I = (nib << W) | (x mod 2^W)`, most significant byte first (R102). -/
def packFields (W : Mode) (nib : Nibble) (x : Nat) : List Byte :=
  unpackBytes W.instrBytes ((nib.toNat <<< W.width) ||| (x % 2 ^ W.width))

/-- ENCODE (R102): the operand, of any width, is cut to its low `W` bits silently (R103). -/
def codecEncode (W : Mode) (op : Op) (xIn : Nat) : List Byte := packFields W op.code xIn

/-- The opcode nibble of an instruction (R66). -/
def Instr.nibble : Instr → Nibble
  | .nopM4 _ | .nopM12 _ | .nopM20 _ => 0x0#4
  | .ldaM4 _ | .ldaM12 _ | .ldaM20 _ => 0x1#4
  | .addM4 _ | .addM12 _ | .addM20 _ => 0x2#4
  | .subM4 _ | .subM12 _ | .subM20 _ => 0x3#4
  | .staM4 _ | .staM12 _ | .staM20 _ => 0x4#4
  | .ldiM4 _ | .ldiM12 _ | .ldiM20 _ => 0x5#4
  | .jmpM4 _ | .jmpM12 _ | .jmpM20 _ => 0x6#4
  | .unmapped7M4 _ | .unmapped7M12 _ | .unmapped7M20 _ => 0x7#4
  | .unmapped8M4 _ | .unmapped8M12 _ | .unmapped8M20 _ => 0x8#4
  | .unmapped9M4 _ | .unmapped9M12 _ | .unmapped9M20 _ => 0x9#4
  | .unmappedAM4 _ | .unmappedAM12 _ | .unmappedAM20 _ => 0xA#4
  | .unmappedBM4 _ | .unmappedBM12 _ | .unmappedBM20 _ => 0xB#4
  | .unmappedCM4 _ | .unmappedCM12 _ | .unmappedCM20 _ => 0xC#4
  | .unmappedDM4 _ | .unmappedDM12 _ | .unmappedDM20 _ => 0xD#4
  | .outM4 _ | .outM12 _ | .outM20 _ => 0xE#4
  | .hltM4 _ | .hltM12 _ | .hltM20 _ => 0xF#4

/-- The opcode an instruction executes as: an unmapped nibble is a NOP (R104, R155). -/
def Instr.op (i : Instr) : Op := (opcodeOf i.nibble).getD .nop

/-- The words of an instruction in its own format. Unlike ENCODE, which takes one of the nine opcodes (R101), it also
writes the rows of the unmapped nibbles. -/
def encode (i : Instr) : List Byte := packFields i.mode i.nibble i.operand

/-! ### The three format tables of R61, drawn byte by byte -/

/-- Format M4: `b0[7:4] = nib`, `b0[3:0] = x[3:0]`. -/
def formatM4 (nib : Nibble) (x : BitVec 4) : List Byte := [nib ++ x]

/-- Format M12: `b0 = nib ‖ x[11:8]`, `b1 = x[7:0]`. -/
def formatM12 (nib : Nibble) (x : BitVec 12) : List Byte :=
  [nib ++ x.extractLsb' 8 4, x.extractLsb' 0 8]

/-- Format M20: `b0 = nib ‖ x[19:16]`, `b1 = x[15:8]`, `b2 = x[7:0]`. -/
def formatM20 (nib : Nibble) (x : BitVec 20) : List Byte :=
  [nib ++ x.extractLsb' 16 4, x.extractLsb' 8 8, x.extractLsb' 0 8]

/-! ### The raw data slot -/

/-- RAWSLOT (R110): the value in byte 0 of the slot, zeros after it. DESIGN CHOICE (the spec's own, D6; log 9), unsafe. -/
def rawSlot (W : Mode) (v : Byte) : List Byte := v :: List.replicate (W.instrBytes - 1) 0x00#8

/-! ### The host's numbering of an instruction's bits -/

/-- The mode whose instructions have `nbits` bits (R21). -/
def Mode.ofBits : Nat → Option Mode
  | 8 => some .w4
  | 16 => some .w12
  | 24 => some .w20
  | _ => none

/-- The instruction the decoder reads from the `nbits`-bit number `w`, numbered as spec/opcode_table.json numbers it: one
number of `8B` bits with `b0` most significant (R67). DEDUCED (log 8). -/
def decodeTableWord (nbits w : Nat) : Option Instr :=
  match Mode.ofBits nbits with
  | none => none
  | some W =>
    match decode W (unpackBytes W.instrBytes w) with
    | .ok (i, _) => some i
    | .error _ => none

end Sys2Proof
end

