-- ==== Sys2Proof/Machine/State.lean ====
section
/-! DEFINITION. The state of the machine: the six items of 10_state.md and nothing else (R33), the reasons a step can
stop, and the state after reset. -/

namespace Sys2Proof.Machine

/-- The memory image (R30) as (address, byte) pairs in one canonical form (`Memory.wf`). -/
abbrev Memory := List Host.Cell

/-- Addresses strictly rise, and no entry equals what an unlisted address reads as. -/
def Memory.wf : Memory → Bool
  | [] => true
  | c :: m => (c.2 != Config.unlistedByte) && m.all (fun d => decide (c.1 < d.1)) && Memory.wf m

/-- The whole state (10_state.md): `W` (R20), `IP` (R22 to R25), `A` (R26 to R28), `MEM` (R30), `HALTED` (R31),
`OUT_TRACE`, oldest first (R32). -/
structure State where
  mode : Mode
  ip : Addr
  a : Byte
  mem : Memory
  halted : Bool
  out : List Byte
deriving DecidableEq, Repr

/-- Why the machine stops. The core raises no exception (R160), so no instruction has a fault. -/
inductive Fault where
  /-- Raised by `step` alone, in a state with `HALTED = 1`: "there is no step" (R127). It is the end of a run, not an
  error. Safe: the machine stops where the spec says it has stopped. DESIGN CHOICE (log 5). -/
  | halted
deriving DecidableEq, Repr

/-- Why an instruction is refused. Every instruction of this hardware has its meaning, so nothing raises one. -/
inductive Refusal where
  /-- For an arm of `exec` whose instruction has no meaning yet; safe. No arm uses it. -/
  | notModelled (mnemonic : String)
deriving DecidableEq, Repr

/-- The state that load-and-reset leaves for a mode and a memory image (R180). -/
def State.start (W : Mode) (image : Memory) : State :=
  { mode := W, ip := 0#20, a := Config.accReset, mem := image, halted := false, out := [] }

/-- The machine right after reset with no block loaded (R180): the all-zero image that a container without records gives
(R186), in the mode that log 1 chooses. -/
def State.reset : State := State.start Config.resetMode []

end Sys2Proof.Machine
end

