-- ==== Sys2Proof/Machine/Flags.lean ====
section
/-! DEFINITION. The ALU (R143, R144): add and subtract on unsigned 8-bit values modulo 256. The hardware has no flag
(R29): the carry and the borrow are discarded, so there is no flag computation. -/

namespace Sys2Proof.Machine

/-- `(A + m) mod 256`; the carry out of bit 7 is recorded nowhere (R140). -/
def aluAdd (a m : Byte) : Byte := a + m

/-- `(A - m) mod 256`; minuend `A`, subtrahend the memory byte; the borrow is recorded nowhere (R141). -/
def aluSub (a m : Byte) : Byte := a - m

end Sys2Proof.Machine
end

