-- ==== Sys2Proof/Machine/Operands.lean ====
section
/-! DEFINITION. The operand forms: absolute address and immediate (R64, R132), each a function of the decoded operand. -/

namespace Sys2Proof.Machine

/-- The effective address of LDA, ADD, SUB, STA and the target of JMP: the operand itself (R132, R150), inside the image.
For an instruction in the machine's own format `x < 2^W` and the reduction changes nothing (R47); for a term of another
mode's format it keeps the address in the image (log 7). -/
def effectiveAddress (W : Mode) (x : Nat) : Nat := x % W.memSize

/-- The immediate of LDI: the operand's low 8 bits, `x mod 256` (R65, R142). -/
def immediate (x : Nat) : Byte := BitVec.ofNat 8 x

end Sys2Proof.Machine
end

