-- ==== Sys2Proof/Machine/Ops.lean ====
section
/-! DEFINITION. The named operations over memory and registers: byte read and write, fetch, advance, emit, halt. There
is no operation for taking an exception or returning from one: the core has none (R160, R164, R165; D16). -/

namespace Sys2Proof.Machine

/-! ### Memory -/

/-- The byte at an address (R46): its entry's, or the unlisted value (R30). -/
def Memory.read : Memory → Nat → Byte
  | [], _ => Config.unlistedByte
  | c :: m, k => if c.1 = k then c.2 else Memory.read m k

/-- Put an entry at its place in the order of addresses. -/
def Memory.insertCell : Memory → Nat → Byte → Memory
  | [], k, v => [(k, v)]
  | c :: m, k, v => if k < c.1 then (k, v) :: c :: m else c :: Memory.insertCell m k v

/-- `MEM[k] <- v` and nothing else (R11, R46). Writing the unlisted value removes the entry, so the form stays canonical. -/
def Memory.write (m : Memory) (k : Nat) (v : Byte) : Memory :=
  let others : Memory := m.filter fun c => c.1 != k
  if v = Config.unlistedByte then others else others.insertCell k v

/-- `MEM[k + i] <- p[i]` for each byte of `p`, in ascending order (R188). -/
def Memory.writeBytes (m : Memory) (k : Nat) : List Byte → Memory
  | [] => m
  | v :: p => Memory.writeBytes (m.write k v) (k + 1) p

/-! ### Registers -/

/-- `MemRead(EA, 1)` at the operand's effective address (R11, R132). -/
def State.readOperand (s : State) (x : Nat) : Byte := s.mem.read (effectiveAddress s.mode x)

/-- `A <- v` (R10). -/
def State.setA (s : State) (v : Byte) : State := { s with a := v }

/-- `MemWrite(EA, 1, v)` at the operand's effective address (R11, R132). -/
def State.writeOperand (s : State) (x : Nat) (v : Byte) : State :=
  { s with mem := s.mem.write (effectiveAddress s.mode x) v }

/-- `IP <- x`, a `W`-bit value (R23, R150). -/
def State.setIp (s : State) (x : Nat) : State := { s with ip := BitVec.ofNat 20 (effectiveAddress s.mode x) }

/-- `Emit(A)`: the accumulator is appended to `OUT_TRACE` and the sink always accepts (R11, R152; D4, log 6). -/
def State.emit (s : State) : State := { s with out := s.out ++ [s.a] }

/-- `HALTED <- 1` (R153). -/
def State.halt (s : State) : State := { s with halted := true }

/-! ### The shared step -/

/-- The address of byte `i` of a fetch, `(IP + i) mod 2^W` (R122; the wrap is D2, log 4). -/
def State.fetchAddress (s : State) (i : Nat) : Nat := (s.ip.toNat + i) % s.mode.memSize

/-- Phase 1: the `B` bytes at `IP` (R122). -/
def State.fetch (s : State) : List Byte :=
  (List.range s.mode.instrBytes).map fun i => s.mem.read (s.fetchAddress i)

/-- Phase 2: the instruction those bytes are (R123). -/
def State.fetchInstr (s : State) : Instr := decodeFetched s.mode s.fetch

/-- Phase 3: `IP <- (IP + B) mod 2^W`, before the effect (R124; the wrap is D1, log 3). -/
def State.advance (s : State) : State :=
  { s with ip := BitVec.ofNat 20 ((s.ip.toNat + s.mode.instrBytes) % s.mode.memSize) }

/-- With `HALTED = 1` there is no step (R127): the machine has stopped, whatever the rest of the state. -/
def haltedStep (_s : State) : Host.Outcome State Fault Refusal := .fault .halted

/-! ### Placing one instruction where the step fetches (the host's `withFetchWord`) -/

/-- The state with the instruction `w` of mode `W` at `IP`: the machine is put in mode `W`, running, its pointer and its
memory inside that mode's image, and the `B` bytes of `w`, `b0` first, are written at `IP` (log 8). -/
def State.placeWord (s : State) (W : Mode) (w : Nat) : State :=
  let k := s.ip.toNat % W.memSize
  let inside : Memory := s.mem.filter fun c => decide (c.1 < W.memSize)
  let place := fun (m : Memory) (c : Byte × Nat) => m.write ((k + c.2) % W.memSize) c.1
  { s with
    mode := W
    ip := BitVec.ofNat 20 k
    mem := (unpackBytes W.instrBytes w).zipIdx.foldl place inside
    halted := false }

end Sys2Proof.Machine
end

