-- ==== Sys2Proof/Machine/Arithmetic.lean ====
section
/-! DEFINITION. ADD, SUB and LDI (43_arithmetic.md), the effect phase of the step (R12). -/

namespace Sys2Proof.Machine

/-- ADD: `A <- (A + MemRead(x, 1)) mod 256` (R140), format M4. -/
def execAddM4 (x : BitVec 4) (s : State) : Host.Outcome State Fault Refusal :=
  .next (s.setA (aluAdd s.a (s.readOperand x.toNat)))

/-- ADD: `A <- (A + MemRead(x, 1)) mod 256` (R140), format M12. -/
def execAddM12 (x : BitVec 12) (s : State) : Host.Outcome State Fault Refusal :=
  .next (s.setA (aluAdd s.a (s.readOperand x.toNat)))

/-- ADD: `A <- (A + MemRead(x, 1)) mod 256` (R140), format M20. -/
def execAddM20 (x : BitVec 20) (s : State) : Host.Outcome State Fault Refusal :=
  .next (s.setA (aluAdd s.a (s.readOperand x.toNat)))

/-- SUB: `A <- (A - MemRead(x, 1)) mod 256` (R141), format M4. -/
def execSubM4 (x : BitVec 4) (s : State) : Host.Outcome State Fault Refusal :=
  .next (s.setA (aluSub s.a (s.readOperand x.toNat)))

/-- SUB: `A <- (A - MemRead(x, 1)) mod 256` (R141), format M12. -/
def execSubM12 (x : BitVec 12) (s : State) : Host.Outcome State Fault Refusal :=
  .next (s.setA (aluSub s.a (s.readOperand x.toNat)))

/-- SUB: `A <- (A - MemRead(x, 1)) mod 256` (R141), format M20. -/
def execSubM20 (x : BitVec 20) (s : State) : Host.Outcome State Fault Refusal :=
  .next (s.setA (aluSub s.a (s.readOperand x.toNat)))

/-- LDI: `A <- x mod 256` (R142), format M4. -/
def execLdiM4 (x : BitVec 4) (s : State) : Host.Outcome State Fault Refusal :=
  .next (s.setA (immediate x.toNat))

/-- LDI: `A <- x mod 256` (R142), format M12. -/
def execLdiM12 (x : BitVec 12) (s : State) : Host.Outcome State Fault Refusal :=
  .next (s.setA (immediate x.toNat))

/-- LDI: `A <- x mod 256` (R142), format M20. -/
def execLdiM20 (x : BitVec 20) (s : State) : Host.Outcome State Fault Refusal :=
  .next (s.setA (immediate x.toNat))

end Sys2Proof.Machine
end

