-- ==== Sys2Proof/Machine/Control.lean ====
section
/-! DEFINITION. JMP, OUT, HLT, NOP (44_control_and_system.md), the effect phase of the step (R12). -/

namespace Sys2Proof.Machine

/-- JMP: `IP <- x`, over the advanced pointer (R150), format M4. -/
def execJmpM4 (x : BitVec 4) (s : State) : Host.Outcome State Fault Refusal :=
  .next (s.setIp x.toNat)

/-- JMP: `IP <- x`, over the advanced pointer (R150), format M12. -/
def execJmpM12 (x : BitVec 12) (s : State) : Host.Outcome State Fault Refusal :=
  .next (s.setIp x.toNat)

/-- JMP: `IP <- x`, over the advanced pointer (R150), format M20. -/
def execJmpM20 (x : BitVec 20) (s : State) : Host.Outcome State Fault Refusal :=
  .next (s.setIp x.toNat)

/-- OUT: `Emit(A)`; the operand is ignored (R70) (R152), format M4. -/
def execOutM4 (_x : BitVec 4) (s : State) : Host.Outcome State Fault Refusal :=
  .next s.emit

/-- OUT: `Emit(A)`; the operand is ignored (R70) (R152), format M12. -/
def execOutM12 (_x : BitVec 12) (s : State) : Host.Outcome State Fault Refusal :=
  .next s.emit

/-- OUT: `Emit(A)`; the operand is ignored (R70) (R152), format M20. -/
def execOutM20 (_x : BitVec 20) (s : State) : Host.Outcome State Fault Refusal :=
  .next s.emit

/-- HLT: `HALTED <- 1`; the operand is ignored (R70) (R153), format M4. -/
def execHltM4 (_x : BitVec 4) (s : State) : Host.Outcome State Fault Refusal :=
  .next s.halt

/-- HLT: `HALTED <- 1`; the operand is ignored (R70) (R153), format M12. -/
def execHltM12 (_x : BitVec 12) (s : State) : Host.Outcome State Fault Refusal :=
  .next s.halt

/-- HLT: `HALTED <- 1`; the operand is ignored (R70) (R153), format M20. -/
def execHltM20 (_x : BitVec 20) (s : State) : Host.Outcome State Fault Refusal :=
  .next s.halt

/-- NOP: no effect (R154), format M4. -/
def execNopM4 (_x : BitVec 4) (s : State) : Host.Outcome State Fault Refusal :=
  .next s

/-- NOP: no effect (R154), format M12. -/
def execNopM12 (_x : BitVec 12) (s : State) : Host.Outcome State Fault Refusal :=
  .next s

/-- NOP: no effect (R154), format M20. -/
def execNopM20 (_x : BitVec 20) (s : State) : Host.Outcome State Fault Refusal :=
  .next s

end Sys2Proof.Machine
end

