-- ==== Sys2Proof/Machine/LoadStore.lean ====
section
/-! DEFINITION. LDA and STA (42_load_store.md), the effect phase of the step: `IP` is already advanced (R12). -/

namespace Sys2Proof.Machine

/-- LDA: `A <- MemRead(x, 1)` (R130), format M4. -/
def execLdaM4 (x : BitVec 4) (s : State) : Host.Outcome State Fault Refusal :=
  .next (s.setA (s.readOperand x.toNat))

/-- LDA: `A <- MemRead(x, 1)` (R130), format M12. -/
def execLdaM12 (x : BitVec 12) (s : State) : Host.Outcome State Fault Refusal :=
  .next (s.setA (s.readOperand x.toNat))

/-- LDA: `A <- MemRead(x, 1)` (R130), format M20. -/
def execLdaM20 (x : BitVec 20) (s : State) : Host.Outcome State Fault Refusal :=
  .next (s.setA (s.readOperand x.toNat))

/-- STA: `MemWrite(x, 1, A)` (R131), format M4. -/
def execStaM4 (x : BitVec 4) (s : State) : Host.Outcome State Fault Refusal :=
  .next (s.writeOperand x.toNat s.a)

/-- STA: `MemWrite(x, 1, A)` (R131), format M12. -/
def execStaM12 (x : BitVec 12) (s : State) : Host.Outcome State Fault Refusal :=
  .next (s.writeOperand x.toNat s.a)

/-- STA: `MemWrite(x, 1, A)` (R131), format M20. -/
def execStaM20 (x : BitVec 20) (s : State) : Host.Outcome State Fault Refusal :=
  .next (s.writeOperand x.toNat s.a)

end Sys2Proof.Machine
end

