-- ==== Sys2Proof/Machine/Unmapped.lean ====
section
/-! DEFINITION. The seven unmapped nibbles 0x7 to 0xD in each format: no effect, identical to NOP (44_control_and_system.md, R155). -/

namespace Sys2Proof.Machine

/-- Unmapped nibble 0x7: no effect (R155), format M4. -/
def execUnmapped7M4 (_x : BitVec 4) (s : State) : Host.Outcome State Fault Refusal :=
  .next s

/-- Unmapped nibble 0x7: no effect (R155), format M12. -/
def execUnmapped7M12 (_x : BitVec 12) (s : State) : Host.Outcome State Fault Refusal :=
  .next s

/-- Unmapped nibble 0x7: no effect (R155), format M20. -/
def execUnmapped7M20 (_x : BitVec 20) (s : State) : Host.Outcome State Fault Refusal :=
  .next s

/-- Unmapped nibble 0x8: no effect (R155), format M4. -/
def execUnmapped8M4 (_x : BitVec 4) (s : State) : Host.Outcome State Fault Refusal :=
  .next s

/-- Unmapped nibble 0x8: no effect (R155), format M12. -/
def execUnmapped8M12 (_x : BitVec 12) (s : State) : Host.Outcome State Fault Refusal :=
  .next s

/-- Unmapped nibble 0x8: no effect (R155), format M20. -/
def execUnmapped8M20 (_x : BitVec 20) (s : State) : Host.Outcome State Fault Refusal :=
  .next s

/-- Unmapped nibble 0x9: no effect (R155), format M4. -/
def execUnmapped9M4 (_x : BitVec 4) (s : State) : Host.Outcome State Fault Refusal :=
  .next s

/-- Unmapped nibble 0x9: no effect (R155), format M12. -/
def execUnmapped9M12 (_x : BitVec 12) (s : State) : Host.Outcome State Fault Refusal :=
  .next s

/-- Unmapped nibble 0x9: no effect (R155), format M20. -/
def execUnmapped9M20 (_x : BitVec 20) (s : State) : Host.Outcome State Fault Refusal :=
  .next s

/-- Unmapped nibble 0xA: no effect (R155), format M4. -/
def execUnmappedAM4 (_x : BitVec 4) (s : State) : Host.Outcome State Fault Refusal :=
  .next s

/-- Unmapped nibble 0xA: no effect (R155), format M12. -/
def execUnmappedAM12 (_x : BitVec 12) (s : State) : Host.Outcome State Fault Refusal :=
  .next s

/-- Unmapped nibble 0xA: no effect (R155), format M20. -/
def execUnmappedAM20 (_x : BitVec 20) (s : State) : Host.Outcome State Fault Refusal :=
  .next s

/-- Unmapped nibble 0xB: no effect (R155), format M4. -/
def execUnmappedBM4 (_x : BitVec 4) (s : State) : Host.Outcome State Fault Refusal :=
  .next s

/-- Unmapped nibble 0xB: no effect (R155), format M12. -/
def execUnmappedBM12 (_x : BitVec 12) (s : State) : Host.Outcome State Fault Refusal :=
  .next s

/-- Unmapped nibble 0xB: no effect (R155), format M20. -/
def execUnmappedBM20 (_x : BitVec 20) (s : State) : Host.Outcome State Fault Refusal :=
  .next s

/-- Unmapped nibble 0xC: no effect (R155), format M4. -/
def execUnmappedCM4 (_x : BitVec 4) (s : State) : Host.Outcome State Fault Refusal :=
  .next s

/-- Unmapped nibble 0xC: no effect (R155), format M12. -/
def execUnmappedCM12 (_x : BitVec 12) (s : State) : Host.Outcome State Fault Refusal :=
  .next s

/-- Unmapped nibble 0xC: no effect (R155), format M20. -/
def execUnmappedCM20 (_x : BitVec 20) (s : State) : Host.Outcome State Fault Refusal :=
  .next s

/-- Unmapped nibble 0xD: no effect (R155), format M4. -/
def execUnmappedDM4 (_x : BitVec 4) (s : State) : Host.Outcome State Fault Refusal :=
  .next s

/-- Unmapped nibble 0xD: no effect (R155), format M12. -/
def execUnmappedDM12 (_x : BitVec 12) (s : State) : Host.Outcome State Fault Refusal :=
  .next s

/-- Unmapped nibble 0xD: no effect (R155), format M20. -/
def execUnmappedDM20 (_x : BitVec 20) (s : State) : Host.Outcome State Fault Refusal :=
  .next s

end Sys2Proof.Machine
end

