-- ==== Sys2Proof/Machine/Dispatch.lean ====
section
/-! DEFINITION. Phase 4 of the step: one arm per constructor of Instr, each one call of its meaning (R125). -/

namespace Sys2Proof.Machine

def exec (i : Instr) (s : State) : Host.Outcome State Fault Refusal :=
  match i with
  | .nopM4 x => Sys2Proof.Machine.execNopM4 x s
  | .ldaM4 x => Sys2Proof.Machine.execLdaM4 x s
  | .addM4 x => Sys2Proof.Machine.execAddM4 x s
  | .subM4 x => Sys2Proof.Machine.execSubM4 x s
  | .staM4 x => Sys2Proof.Machine.execStaM4 x s
  | .ldiM4 x => Sys2Proof.Machine.execLdiM4 x s
  | .jmpM4 x => Sys2Proof.Machine.execJmpM4 x s
  | .unmapped7M4 x => Sys2Proof.Machine.execUnmapped7M4 x s
  | .unmapped8M4 x => Sys2Proof.Machine.execUnmapped8M4 x s
  | .unmapped9M4 x => Sys2Proof.Machine.execUnmapped9M4 x s
  | .unmappedAM4 x => Sys2Proof.Machine.execUnmappedAM4 x s
  | .unmappedBM4 x => Sys2Proof.Machine.execUnmappedBM4 x s
  | .unmappedCM4 x => Sys2Proof.Machine.execUnmappedCM4 x s
  | .unmappedDM4 x => Sys2Proof.Machine.execUnmappedDM4 x s
  | .outM4 x => Sys2Proof.Machine.execOutM4 x s
  | .hltM4 x => Sys2Proof.Machine.execHltM4 x s
  | .nopM12 x => Sys2Proof.Machine.execNopM12 x s
  | .ldaM12 x => Sys2Proof.Machine.execLdaM12 x s
  | .addM12 x => Sys2Proof.Machine.execAddM12 x s
  | .subM12 x => Sys2Proof.Machine.execSubM12 x s
  | .staM12 x => Sys2Proof.Machine.execStaM12 x s
  | .ldiM12 x => Sys2Proof.Machine.execLdiM12 x s
  | .jmpM12 x => Sys2Proof.Machine.execJmpM12 x s
  | .unmapped7M12 x => Sys2Proof.Machine.execUnmapped7M12 x s
  | .unmapped8M12 x => Sys2Proof.Machine.execUnmapped8M12 x s
  | .unmapped9M12 x => Sys2Proof.Machine.execUnmapped9M12 x s
  | .unmappedAM12 x => Sys2Proof.Machine.execUnmappedAM12 x s
  | .unmappedBM12 x => Sys2Proof.Machine.execUnmappedBM12 x s
  | .unmappedCM12 x => Sys2Proof.Machine.execUnmappedCM12 x s
  | .unmappedDM12 x => Sys2Proof.Machine.execUnmappedDM12 x s
  | .outM12 x => Sys2Proof.Machine.execOutM12 x s
  | .hltM12 x => Sys2Proof.Machine.execHltM12 x s
  | .nopM20 x => Sys2Proof.Machine.execNopM20 x s
  | .ldaM20 x => Sys2Proof.Machine.execLdaM20 x s
  | .addM20 x => Sys2Proof.Machine.execAddM20 x s
  | .subM20 x => Sys2Proof.Machine.execSubM20 x s
  | .staM20 x => Sys2Proof.Machine.execStaM20 x s
  | .ldiM20 x => Sys2Proof.Machine.execLdiM20 x s
  | .jmpM20 x => Sys2Proof.Machine.execJmpM20 x s
  | .unmapped7M20 x => Sys2Proof.Machine.execUnmapped7M20 x s
  | .unmapped8M20 x => Sys2Proof.Machine.execUnmapped8M20 x s
  | .unmapped9M20 x => Sys2Proof.Machine.execUnmapped9M20 x s
  | .unmappedAM20 x => Sys2Proof.Machine.execUnmappedAM20 x s
  | .unmappedBM20 x => Sys2Proof.Machine.execUnmappedBM20 x s
  | .unmappedCM20 x => Sys2Proof.Machine.execUnmappedCM20 x s
  | .unmappedDM20 x => Sys2Proof.Machine.execUnmappedDM20 x s
  | .outM20 x => Sys2Proof.Machine.execOutM20 x s
  | .hltM20 x => Sys2Proof.Machine.execHltM20 x s

end Sys2Proof.Machine
end

