-- ==== Sys2Proof/Machine/Step.lean ====
section
/-! DEFINITION. The step (R121): fetch, decode, advance, effect; no step once halted (R127). -/

namespace Sys2Proof.Machine

/-- One instruction (R121). -/
def step (s : State) : Host.Outcome State Fault Refusal :=
  if s.halted then haltedStep s else exec s.fetchInstr s.advance

/-- The state whose very next step runs the `nbits`-bit instruction `w` of the opcode table (log 8). -/
def State.withFetchWord (s : State) (nbits w : Nat) : State :=
  match Mode.ofBits nbits with
  | some W => s.placeWord W w
  | none => s

end Sys2Proof.Machine
end

