-- ==== Sys2Proof/Machine/Loader.lean ====
section
/-! DEFINITION. The binary container and the loader (70_reset_and_hazards.md, R184 to R192), and load-and-reset (R180).
Software around the core, specified because it is the only way memory gets its contents and the mode its value. -/

namespace Sys2Proof.Machine

/-- The marker bytes 'B' and 'E' (R184); their values are ASCII (R185, G1). PRESUMED (log 10), safe. -/
def markerB : Byte := 0x42#8

/-- The second marker byte (R185). PRESUMED (log 10), safe. -/
def markerE : Byte := 0x45#8

/-- A 4-byte big-endian unsigned number (R186). What the writer puts in the field for a number of 2^32 or more the spec does
not say (N24): the low 32 bits. DESIGN CHOICE (log 21), unsafe. -/
def bigEndian32 (n : Nat) : List Byte := unpackBytes 4 n

/-- The header: marker, mode, reserved byte 0 (R184). -/
def headerBytes (W : Mode) : List Byte := [markerB, markerE, BitVec.ofNat 8 W.width, 0x00#8]

/-- One block record: address, length, payload (R186). -/
def recordBytes (r : Record) : List Byte :=
  bigEndian32 r.addr ++ bigEndian32 r.payload.length ++ r.payload

/-- The writer: the header, then the records in order (R192). -/
def writeContainer (W : Mode) (rs : List Record) : List Byte := headerBytes W ++ rs.flatMap recordBytes

/-- The loop of the loader (R188) over what is left of the stream: a record is an address, a length and a payload; the
range check precedes the copy and takes the sum as a natural number (R189, D14); later records overwrite earlier ones
(R191); a partial trailing record is an `IOError` (R190). Each round consumes at least 8 bytes, so `fuel` equal to the
stream's length is never used up. -/
def loadRecords (W : Mode) : Nat → Memory → List Byte → Except LoadError Memory
  | _, m, [] => .ok m
  | 0, _, _ :: _ => .error .ioError
  | fuel + 1, m, b :: bs =>
    let stream := b :: bs
    if stream.length < 8 then .error .ioError
    else
      let addr := packBytes (stream.take 4)
      let len := packBytes ((stream.drop 4).take 4)
      let rest := stream.drop 8
      if addr + len > W.memSize then .error .memoryRangeError
      else if rest.length < len then .error .ioError
      else loadRecords W fuel (m.writeBytes addr (rest.take len)) (rest.drop len)

/-- The loader (R188): header check, mode check, then the records over a zeroed image. Byte 3 is not examined (D14). -/
def load (stream : List Byte) : Except LoadError (Mode × Memory) :=
  match stream with
  | b0 :: b1 :: b2 :: _ :: rest =>
    if b0 ≠ markerB ∨ b1 ≠ markerE then .error .headerError
    else
      match Mode.ofNumber b2.toNat with
      | none => .error .addressWidthError
      | some W =>
        match loadRecords W rest.length [] rest with
        | .error e => .error e
        | .ok m => .ok (W, m)
  | _ => .error .headerError

/-- The reset event: load a container and start at address 0 with nothing emitted (R180). A failed load is no launch: there
is no machine state (R166). -/
def launch (stream : List Byte) : Except LoadError State :=
  match load stream with
  | .error e => .error e
  | .ok (W, m) => .ok (State.start W m)

end Sys2Proof.Machine
end

