-- ==== Sys2Proof/Machine/Assembler.lean ====
section
/-! DEFINITION. The assembler's source syntax (30_encoding.md section 7, R80 to R92): literals, statements, comments, the
source text and its delimiters, blocks, placement and output. Software around the core. -/

namespace Sys2Proof.Machine

/-! ### Numeric literals (R81) -/

/-- The value of a digit character, hexadecimal letters in either case. -/
def digitValue (c : Char) : Option Nat :=
  if '0' ≤ c ∧ c ≤ '9' then some (c.toNat - '0'.toNat)
  else if 'a' ≤ c ∧ c ≤ 'f' then some (c.toNat - 'a'.toNat + 10)
  else if 'A' ≤ c ∧ c ≤ 'F' then some (c.toNat - 'A'.toNat + 10)
  else none

/-- Read digits of a base from the left, with the value of the digits already read; `none` on any other character. -/
def readDigits (base : Nat) : Nat → List Char → Option Nat
  | acc, [] => some acc
  | acc, c :: cs =>
    match digitValue c with
    | some d => if d < base then readDigits base (acc * base + d) cs else none
    | none => none

/-- White space around a token is ignored (R81). Which characters it is, the spec does not say (N23): Lean's own
`isWhitespace` (space, tab, carriage return, newline). DESIGN CHOICE (log 11), safe. -/
def trimSpace (cs : List Char) : List Char :=
  ((cs.dropWhile Char.isWhitespace).reverse.dropWhile Char.isWhitespace).reverse

/-- The base a literal's prefix selects and the digits after it, in priority order: `0x`/`0X`, `0b`/`0B`, decimal (R81). -/
def literalBase : List Char → Nat × List Char
  | '0' :: c :: ds =>
    if c = 'x' ∨ c = 'X' then (16, ds)
    else if c = 'b' ∨ c = 'B' then (2, ds)
    else (10, '0' :: c :: ds)
  | ds => (10, ds)

/-- The literal parser (R81): no sign, no digits missing, at most `LITERAL_MAX` (D20, log 11). -/
def parseLiteral (token : List Char) : Except AsmError Nat :=
  match literalBase (trimSpace token) with
  | (_, []) => .error .numberFormatError
  | (base, ds) =>
    match readDigits base 0 ds with
    | none => .error .numberFormatError
    | some v => if v ≤ Config.literalMax then .ok v else .error .numberFormatError

/-! ### Statements (R82 to R85) -/

/-- The nine mnemonics (R83). -/
def mnemonicTable : List (List Char × Op) :=
  [ (['N', 'O', 'P'], .nop), (['L', 'D', 'A'], .lda), (['A', 'D', 'D'], .add), (['S', 'U', 'B'], .sub),
    (['S', 'T', 'A'], .sta), (['L', 'D', 'I'], .ldi), (['J', 'M', 'P'], .jmp), (['O', 'U', 'T'], .out),
    (['H', 'L', 'T'], .hlt) ]

/-- Opcode lookup: the first three characters, normalized to uppercase (R83). A shorter segment matches nothing and what
follows the third character is ignored (D21, log 12). -/
def lookupMnemonic (segment : List Char) : Except AsmError Op :=
  match mnemonicTable.lookup ((segment.take 3).map Char.toUpper) with
  | some op => .ok op
  | none => .error .opcodeError

/-- Whether a segment begins with an uppercase ASCII letter, as written (R84; D15, log 12). -/
def startsUppercase : List Char → Bool
  | [] => false
  | c :: _ => decide ('A' ≤ c ∧ c ≤ 'Z')

/-- Classification of a statement by its segments (R82): bare opcode (R84), raw data byte (R85), instruction with
operand (R83), or `LineError`. -/
def classifyLine (segments : List (List Char)) : Except AsmError Line :=
  match segments with
  | [word] =>
    if startsUppercase word then
      match lookupMnemonic word with
      | .error e => .error e
      | .ok op => .ok (.instruction op 0)
    else
      match parseLiteral word with
      | .error e => .error e
      | .ok v => .ok (.raw (BitVec.ofNat 8 v))
  | [word, operand] =>
    match lookupMnemonic word with
    | .error e => .error e
    | .ok op =>
      match parseLiteral operand with
      | .error e => .error e
      | .ok v => .ok (.instruction op v)
  | _ => .error .lineError

/-! ### Slots, payloads, records (R85, R88, R91, R111) -/

/-- The instruction slot of a line: `B` bytes (R85, R109, R110). -/
def slot (W : Mode) : Line → List Byte
  | .instruction op x => codecEncode W op x
  | .raw v => rawSlot W v

/-- The payload of a block: its lines' slots in order (R111). -/
def payload (W : Mode) (lines : List Line) : List Byte := lines.flatMap (slot W)

/-- The container record of a block (R91). -/
def blockRecord (W : Mode) (b : Block) : Record := { addr := b.addr, payload := payload W b.lines }

/-! ### The source text: comments, delimiters, segments (R82, R86, R87) -/

/-- A comment runs from `#` to the end of its line and is stripped before tokenizing (R87). The flag says whether the
reader is inside one. What ends a line, and what a `;` inside a comment does, the spec does not say (N23): the newline
character alone ends one, and every other character of a comment, a `;` among them, is dropped. DESIGN CHOICE (log 22). -/
def stripComments : Bool → List Char → List Char
  | _, [] => []
  | inside, c :: cs =>
    if c = '\n' then c :: stripComments false cs
    else if inside then stripComments true cs
    else if c = '#' then stripComments true cs
    else c :: stripComments false cs

/-- The opening brace of a block, U+007B (R86); a file of this package holds no brace in a literal. -/
def openBraceChar : Char := Char.ofNat 0x7B

/-- The closing brace of a block, U+007D (R86). -/
def closeBraceChar : Char := Char.ofNat 0x7D

/-- The delimiter a character of the source is: `;` or a brace (R82, R86). -/
def delimiterOf (c : Char) : Option Token :=
  if c = ';' then some .semicolon
  else if c = openBraceChar then some .openBrace
  else if c = closeBraceChar then some .closeBrace
  else none

/-- The white-space-delimited segments of a text without delimiters, in order (R82). White space is `isWhitespace`, as for a
literal (log 11); a line break is white space like any other, so a statement may span source lines, which the spec does
not settle (N23). DESIGN CHOICE (log 23), unsafe. -/
def segments (text : List Char) : List (List Char) :=
  (text.splitOnP Char.isWhitespace).filter fun word => !word.isEmpty

/-- The tokens of a source text: what stands between two delimiters is the text of a line (R82) or of a block's address
(R86), given as its segments. The first argument is the text since the last delimiter, last character first. -/
def tokenize : List Char → List Char → List Token
  | text, [] => (segments text.reverse).map .word
  | text, c :: cs =>
    match delimiterOf c with
    | some d => (segments text.reverse).map .word ++ d :: tokenize [] cs
    | none => tokenize (c :: text) cs

/-! ### Blocks and the source stream (R80, R86) -/

/-- The lines of a block after its opening brace, and the tokens after its closing one (R86). `segments` is the statement
being read, last segment first, and `more` says whether a `;` has just ended a line: only then may the closing brace
follow with no statement (R86, C9). Errors are those of the first failing point of the stream (log 13). -/
def readLines : List (List Char) → Bool → List Token → Except AsmError (List Line × List Token)
  | _, _, [] => .error .blockError
  | segments, more, .word w :: ts => readLines (w :: segments) more ts
  | _, _, .openBrace :: _ => .error .blockError
  | segments, _, .semicolon :: ts =>
    match classifyLine segments.reverse with
    | .error e => .error e
    | .ok l =>
      match readLines [] true ts with
      | .error e => .error e
      | .ok (ls, rest) => .ok (l :: ls, rest)
  | segments, more, .closeBrace :: ts =>
    if segments.isEmpty && more then .ok ([], ts)
    else
      match classifyLine segments.reverse with
      | .error e => .error e
      | .ok l => .ok ([l], ts)

/-- One block: an address literal, then the lines between braces (R86). -/
def readBlock : List Token → Except AsmError (Block × List Token)
  | .word w :: ts =>
    match parseLiteral w with
    | .error _ => .error .addressError
    | .ok addr =>
      match ts with
      | .openBrace :: body =>
        match readLines [] false body with
        | .error e => .error e
        | .ok (ls, rest) => .ok ({ addr := addr, lines := ls }, rest)
      | _ => .error .blockError
  | _ => .error .blockError

/-- The blocks of a source until its end or its first error; each block read is kept, since it is written as it is parsed
(R90, C7). Each block consumes tokens, so `fuel` equal to their number is never used up. -/
def readBlocks : Nat → List Token → List Block × Option AsmError
  | _, [] => ([], none)
  | 0, _ :: _ => ([], some .blockError)
  | fuel + 1, ts =>
    match readBlock ts with
    | .error e => ([], some e)
    | .ok (b, rest) =>
      let r := readBlocks fuel rest
      (b :: r.1, r.2)

/-- The assembler: the mode token, then the blocks (R80). -/
def assemble : List Token → AsmResult
  | .word w :: ts =>
    match parseLiteral w with
    | .error e => { mode := none, blocks := [], error := some e }
    | .ok v =>
      match Mode.ofNumber v with
      | none => { mode := none, blocks := [], error := some .addressWidthError }
      | some W =>
        let r := readBlocks ts.length ts
        { mode := some W, blocks := r.1, error := r.2 }
  | _ => { mode := none, blocks := [], error := some .numberFormatError }

/-- The assembler on a source text: comments are stripped prior to tokenizing (R87), then the stream is read (R80). -/
def assembleText (source : List Char) : AsmResult := assemble (tokenize [] (stripComments false source))

/-- The container a source assembles to (R91, R192): the header and one record per block, in source order. -/
def assembledContainer (W : Mode) (bs : List Block) : List Byte := writeContainer W (bs.map (blockRecord W))

end Sys2Proof.Machine
end

