-- ==== Sys2Proof/Machine/Run.lean ====
section
/-! DEFINITION. A run (R128) up to a bound (U13), what the host observes of it (R195), and the output port (R157). -/

namespace Sys2Proof.Machine

/-- The state after at most `n` steps: a run ends when `HALTED = 1` and keeps the state it then has (R127, R128). -/
def run : Nat → State → State
  | 0, s => s
  | n + 1, s =>
    match step s with
    | .next t => run n t
    | .fault _ => s
    | .refused _ => s

/-- The output port during the step at `s`: `some v` when `out_valid` is asserted with `out_value = v`, which is during
the effect phase of an OUT and at no other time (R157). -/
def outPort (s : State) : Option Byte :=
  if s.halted then none
  else if s.fetchInstr.op = .out then some s.a else none

/-- What the host observes (R195): the emitted values during the run, and after the halt the whole of `MEM`, byte by byte. -/
structure HostView where
  outTrace : List Byte
  dump : Option (List Byte)
deriving DecidableEq, Repr

/-- The host's view of a state of a run: no dump before the halt (R54, R195). -/
def hostView (s : State) : HostView :=
  { outTrace := s.out
    dump := if s.halted then some ((List.range s.mode.memSize).map s.mem.read) else none }

end Sys2Proof.Machine
end

