-- ==== Sys2Proof/Safety.lean ====
section
/-! DEFINITION. What counts as a well-formed state and a safe run, in the terms the claims use. -/

namespace Sys2Proof.Machine

/-- Every listed address is an address of the image, `0 <= k < 2^W` (R40). -/
abbrev Memory.inside (m : Memory) (W : Mode) : Prop := ∀ c ∈ m, c.1 < W.memSize

/-- The invariant: memory is in canonical form and inside the image (R30, R40), and `IP < 2^W` (R23). -/
abbrev State.Inv (s : State) : Prop :=
  s.mem.wf = true ∧ s.mem.inside s.mode ∧ s.ip.toNat < s.mode.memSize

/-- A run of at most `n` steps that never stops other than by HLT: every step on the way answers a next state, or the
machine is halted (R120, R126). -/
def SafeRun : Nat → State → Prop
  | 0, _ => True
  | n + 1, s => s.halted = true ∨ ∃ t, step s = .next t ∧ SafeRun n t

/-- Whether a record covers an address (R188). -/
def recordCovers (k : Nat) (r : Record) : Bool := decide (r.addr ≤ k ∧ k < r.addr + r.payload.length)

/-- The byte that the records, applied in order, leave at an address: the last record that covers it decides, and an
address no record covers holds 0 (R188, R191, U15). -/
def imageByte : List Record → Nat → Byte
  | [], _ => 0x00#8
  | r :: rs, k =>
    if rs.any (recordCovers k) then imageByte rs k
    else if recordCovers k r then r.payload.getD (k - r.addr) 0x00#8
    else 0x00#8

end Sys2Proof.Machine
end

