-- ==== Sys2Proof/Certificates/Slice0/Obligations.lean ====
section
/-! DEFINITION. The statements for the provers, one def Obligations.<Name> each, from the numbered rules of spec/. -/

open Sys2Proof Sys2Proof.Machine

/-- `W` fixes `B` and `2^W` (R21), and every instruction of the format has `B` bytes (R60). That `8B - 4 = W`, so that there are no padding bits, is an inference that R21 marks as its own ("derived: arithmetic on the three rows"). -/
def Obligations.ModeFixesWidthAndMemorySize : Prop :=
  (Mode.width .w4 = 4 ∧ Mode.instrBytes .w4 = 1 ∧ Mode.memSize .w4 = 16) ∧
  (Mode.width .w12 = 12 ∧ Mode.instrBytes .w12 = 2 ∧ Mode.memSize .w12 = 4096) ∧
  (Mode.width .w20 = 20 ∧ Mode.instrBytes .w20 = 3 ∧ Mode.memSize .w20 = 1048576) ∧
  (∀ W : Mode, W.instrBytes = (W.width + 4 + 7) / 8 ∧ W.memSize = 2 ^ W.width ∧ 8 * W.instrBytes - 4 = W.width) ∧
  (∀ i : Instr, (encode i).length = i.mode.instrBytes)

/-- R108 (and R66): the nine codes, `opcode_of` their partial inverse, undefined exactly on 0x7 to 0xD. -/
def Obligations.OpcodeTableHasAPartialInverse : Prop :=
  Op.code .nop = 0x0#4 ∧
  Op.code .lda = 0x1#4 ∧
  Op.code .add = 0x2#4 ∧
  Op.code .sub = 0x3#4 ∧
  Op.code .sta = 0x4#4 ∧
  Op.code .ldi = 0x5#4 ∧
  Op.code .jmp = 0x6#4 ∧
  Op.code .out = 0xE#4 ∧
  Op.code .hlt = 0xF#4 ∧
  (∀ op : Op, opcodeOf op.code = some op) ∧
  (∀ n op, opcodeOf n = some op → op.code = n) ∧
  (∀ n : Nibble, opcodeOf n = none ↔ 7 ≤ n.toNat ∧ n.toNat ≤ 13)

/-- R102: ENCODE written out per mode, and as one number of `8B` bits, `(code(op) << W) | (x_in mod 2^W)`. -/
def Obligations.EncodeFollowsTheFormatTables : Prop :=
  (∀ op xIn, codecEncode .w4 op xIn = formatM4 op.code (BitVec.ofNat 4 xIn)) ∧
  (∀ op xIn, codecEncode .w12 op xIn = formatM12 op.code (BitVec.ofNat 12 xIn)) ∧
  (∀ op xIn, codecEncode .w20 op xIn = formatM20 op.code (BitVec.ofNat 20 xIn)) ∧
  (∀ W op xIn, packBytes (codecEncode W op xIn) = op.code.toNat * 2 ^ W.width + xIn % 2 ^ W.width ∧
    (codecEncode W op xIn).length = W.instrBytes)

/-- R104: DECODE per mode, for every nibble and every operand; `mapped` is membership in the nine codes and an unmapped nibble gives NOP. -/
def Obligations.DecodeFollowsTheFormatTables : Prop :=
  (∀ n x, codecDecode .w4 (formatM4 n x) =
    { op := (opcodeOf n).getD .nop, nib := n, mapped := (opcodeOf n).isSome, x := x.toNat }) ∧
  (∀ n x, codecDecode .w12 (formatM12 n x) =
    { op := (opcodeOf n).getD .nop, nib := n, mapped := (opcodeOf n).isSome, x := x.toNat }) ∧
  (∀ n x, codecDecode .w20 (formatM20 n x) =
    { op := (opcodeOf n).getD .nop, nib := n, mapped := (opcodeOf n).isSome, x := x.toNat }) ∧
  (∀ n : Nibble, (opcodeOf n).isSome = true ↔ n ∈ [0x0#4, 0x1#4, 0x2#4, 0x3#4, 0x4#4, 0x5#4, 0x6#4, 0xE#4, 0xF#4])

/-- R103: high bits are lost without an error, for every opcode; with the rule's two examples. -/
def Obligations.EncodeTruncatesTheOperandSilently : Prop :=
  (∀ W op xIn, codecEncode W op xIn = codecEncode W op (xIn % 2 ^ W.width)) ∧
  codecEncode .w4 .ldi 0x1F = [0x5F#8] ∧ codecEncode .w12 .jmp 0x1000 = [0x60#8, 0x00#8]

/-- R106: the encode-then-decode law of the codec. -/
def Obligations.DecodingAnEncodingGivesBackOpcodeAndMaskedOperand : Prop :=
  ∀ (W : Mode) (op : Op) (xIn : Nat),
    codecDecode W (codecEncode W op xIn) =
      { op := op, nib := op.code, mapped := true, x := xIn % 2 ^ W.width }

/-- The decode-then-encode direction (R107, which the spec marks as derived): mapped bytes come back, unmapped ones come back with the high nibble of `b0` 0. -/
def Obligations.EncodingADecodingRestoresMappedBytesOnly : Prop :=
  ∀ (W : Mode) (bs : List Byte), bs.length = W.instrBytes →
    ((codecDecode W bs).mapped = true → codecEncode W (codecDecode W bs).op (codecDecode W bs).x = bs) ∧
    ((codecDecode W bs).mapped = false →
      packBytes (codecEncode W (codecDecode W bs).op (codecDecode W bs).x) = packBytes bs % 2 ^ W.width ∧
      codecEncode W (codecDecode W bs).op (codecDecode W bs).x ≠ bs)

/-- R105: every `B` bytes decode in every mode, none is an error; an unmapped nibble gives NOP with `mapped = 0` and its operand extracted. -/
def Obligations.DecodeIsTotal : Prop :=
  ∀ (W : Mode) (bs : List Byte), bs.length = W.instrBytes →
    (∃ i, decode W bs = .ok (i, []) ∧ i.wellFormed W = true ∧ i.nibble = (codecDecode W bs).nib ∧
      i.op = (codecDecode W bs).op ∧ i.operand = (codecDecode W bs).x) ∧
    ((codecDecode W bs).nib ∈ [0x7#4, 0x8#4, 0x9#4, 0xA#4, 0xB#4, 0xC#4, 0xD#4] →
      (codecDecode W bs).op = .nop ∧ (codecDecode W bs).mapped = false ∧
      (codecDecode W bs).x = packBytes bs % 2 ^ W.width)

/-- R113. -/
def Obligations.OnlyTheFirstBytesTakePart : Prop :=
  (∀ (W : Mode) (bs rest : List Byte), bs.length = W.instrBytes → codecDecode W (bs ++ rest) = codecDecode W bs) ∧
  (∀ (W : Mode) (op : Op) (xIn : Nat), (codecEncode W op xIn).length = W.instrBytes)

/-- The one-hot dispatch lines (R112, the spec's own presentation D22): exactly one is 1, `sel_NOP` for nibble 0 and the unmapped seven. -/
def Obligations.ExactlyOneSelectLineIsAsserted : Prop :=
  ∀ (W : Mode) (bs : List Byte),
    let d := codecDecode W bs
    let l := d.select
    ([l.selNop, l.selLda, l.selAdd, l.selSub, l.selSta, l.selLdi, l.selJmp, l.selOut, l.selHlt].filter id).length = 1 ∧
    (l.selNop = true ↔ d.nib = 0x0#4 ∨ d.mapped = false) ∧
    (d.mapped = true →
      (l.selLda = true ↔ d.nib = 0x1#4) ∧ (l.selAdd = true ↔ d.nib = 0x2#4) ∧ (l.selSub = true ↔ d.nib = 0x3#4) ∧
      (l.selSta = true ↔ d.nib = 0x4#4) ∧ (l.selLdi = true ↔ d.nib = 0x5#4) ∧ (l.selJmp = true ↔ d.nib = 0x6#4) ∧
      (l.selOut = true ↔ d.nib = 0xE#4) ∧ (l.selHlt = true ↔ d.nib = 0xF#4))

/-- For every well-formed instruction, all 48 rows with every operand: decoding its words gives it back and leaves the bytes after it (R100, R109 and R113 speak of the nine opcodes; here the unmapped rows too). -/
def Obligations.DecodeUndoesEncode : Prop :=
  ∀ (W : Mode) (i : Instr) (rest : List Byte), i.wellFormed W = true →
    decode W (encode i ++ rest) = .ok (i, rest) ∧ (encode i).length = W.instrBytes

/-- Whatever bytes the decoder accepts are exactly the words of the instruction it answers, so no bit is dropped and no two words share a meaning; it rejects exactly the lists with fewer than `B` bytes (log 17). -/
def Obligations.EncodeUndoesDecode : Prop :=
  (∀ (W : Mode) (bs : List Byte) (i : Instr) (rest : List Byte), decode W bs = .ok (i, rest) →
    i.wellFormed W = true ∧ encode i ++ rest = bs) ∧
  (∀ (W : Mode) (bs : List Byte), decode W bs = .error .tooShort ↔ bs.length < W.instrBytes)

/-- Words of R73 and of the DECODE vectors (95_test_vectors.md section 2.2), one or more of every family. -/
def Obligations.SampleWordsDecodeAsTheSpecEncodesThem : Prop :=
  decode .w4 [0x1A#8] = .ok (.ldaM4 0xA#4, []) ∧
  decode .w4 [0x7A#8] = .ok (.unmapped7M4 0xA#4, []) ∧
  decode .w12 [0x6C#8, 0xDE#8] = .ok (.jmpM12 0xCDE#12, []) ∧
  decode .w12 [0x20#8, 0x0A#8] = .ok (.addM12 0x00A#12, []) ∧
  decode .w12 [0xE0#8, 0x00#8] = .ok (.outM12 0x000#12, []) ∧
  decode .w20 [0x4F#8, 0xFF#8, 0xFF#8] = .ok (.staM20 0xFFFFF#20, []) ∧
  decode .w20 [0x50#8, 0x01#8, 0xFF#8] = .ok (.ldiM20 0x001FF#20, [])

/-- R130, LDA: `A <- MEM[x]`, nothing else changed (`IP` keeps the advanced value), no exception. Its encodings in the three formats and its assembler syntax stand beside the effect. -/
def Obligations.LdaLoadsTheAddressedByte : Prop :=
  (∀ x, decode .w4 (formatM4 0x1#4 x) = .ok (.ldaM4 x, [])) ∧
  (∀ x, decode .w12 (formatM12 0x1#4 x) = .ok (.ldaM12 x, [])) ∧
  (∀ x, decode .w20 (formatM20 0x1#4 x) = .ok (.ldaM20 x, [])) ∧
  (∀ literal n, parseLiteral literal = .ok n →
    classifyLine [['L', 'D', 'A'], literal] = .ok (.instruction .lda n)) ∧
  classifyLine [['L', 'D', 'A']] = .ok (.instruction .lda 0) ∧
  (∀ (s : State) x, s.mode = .w4 → exec (.ldaM4 x) s = .next { s with a := s.mem.read x.toNat }) ∧
  (∀ (s : State) x, s.mode = .w12 → exec (.ldaM12 x) s = .next { s with a := s.mem.read x.toNat }) ∧
  (∀ (s : State) x, s.mode = .w20 → exec (.ldaM20 x) s = .next { s with a := s.mem.read x.toNat })

/-- R131, STA: `MEM[x] <- A`, all 8 bits in every mode; every other byte, `A` and the rest of the state unchanged, no exception. Its encodings in the three formats and its assembler syntax stand beside the effect. -/
def Obligations.StaStoresTheAccumulator : Prop :=
  (∀ x, decode .w4 (formatM4 0x4#4 x) = .ok (.staM4 x, [])) ∧
  (∀ x, decode .w12 (formatM12 0x4#4 x) = .ok (.staM12 x, [])) ∧
  (∀ x, decode .w20 (formatM20 0x4#4 x) = .ok (.staM20 x, [])) ∧
  (∀ literal n, parseLiteral literal = .ok n →
    classifyLine [['S', 'T', 'A'], literal] = .ok (.instruction .sta n)) ∧
  classifyLine [['S', 'T', 'A']] = .ok (.instruction .sta 0) ∧
  (∀ (s : State) x, s.mode = .w4 → ∃ t, exec (.staM4 x) s = .next t ∧ t = { s with mem := t.mem } ∧
    effectiveAddress s.mode x.toNat = x.toNat ∧ t.mem.read (effectiveAddress s.mode x.toNat) = s.a ∧
    ∀ k, k ≠ effectiveAddress s.mode x.toNat → t.mem.read k = s.mem.read k) ∧
  (∀ (s : State) x, s.mode = .w12 → ∃ t, exec (.staM12 x) s = .next t ∧ t = { s with mem := t.mem } ∧
    effectiveAddress s.mode x.toNat = x.toNat ∧ t.mem.read (effectiveAddress s.mode x.toNat) = s.a ∧
    ∀ k, k ≠ effectiveAddress s.mode x.toNat → t.mem.read k = s.mem.read k) ∧
  (∀ (s : State) x, s.mode = .w20 → ∃ t, exec (.staM20 x) s = .next t ∧ t = { s with mem := t.mem } ∧
    effectiveAddress s.mode x.toNat = x.toNat ∧ t.mem.read (effectiveAddress s.mode x.toNat) = s.a ∧
    ∀ k, k ≠ effectiveAddress s.mode x.toNat → t.mem.read k = s.mem.read k)

/-- R140, ADD: `A <- (A + MEM[x]) mod 256` on unsigned 8-bit values in every mode; memory and everything else unchanged, no flag, no exception. Its encodings in the three formats and its assembler syntax stand beside the effect. -/
def Obligations.AddWrapsModulo256 : Prop :=
  (∀ x, decode .w4 (formatM4 0x2#4 x) = .ok (.addM4 x, [])) ∧
  (∀ x, decode .w12 (formatM12 0x2#4 x) = .ok (.addM12 x, [])) ∧
  (∀ x, decode .w20 (formatM20 0x2#4 x) = .ok (.addM20 x, [])) ∧
  (∀ literal n, parseLiteral literal = .ok n →
    classifyLine [['A', 'D', 'D'], literal] = .ok (.instruction .add n)) ∧
  classifyLine [['A', 'D', 'D']] = .ok (.instruction .add 0) ∧
  (∀ (s : State) x, s.mode = .w4 → ∃ t, exec (.addM4 x) s = .next t ∧ t = { s with a := t.a } ∧
    t.a.toNat = (s.a.toNat + (s.mem.read x.toNat).toNat) % 256) ∧
  (∀ (s : State) x, s.mode = .w12 → ∃ t, exec (.addM12 x) s = .next t ∧ t = { s with a := t.a } ∧
    t.a.toNat = (s.a.toNat + (s.mem.read x.toNat).toNat) % 256) ∧
  (∀ (s : State) x, s.mode = .w20 → ∃ t, exec (.addM20 x) s = .next t ∧ t = { s with a := t.a } ∧
    t.a.toNat = (s.a.toNat + (s.mem.read x.toNat).toNat) % 256)

/-- R141, SUB: `A <- (A - MEM[x]) mod 256` on unsigned 8-bit values in every mode; memory and everything else unchanged, no flag, no exception. Its encodings in the three formats and its assembler syntax stand beside the effect. -/
def Obligations.SubWrapsModulo256 : Prop :=
  (∀ x, decode .w4 (formatM4 0x3#4 x) = .ok (.subM4 x, [])) ∧
  (∀ x, decode .w12 (formatM12 0x3#4 x) = .ok (.subM12 x, [])) ∧
  (∀ x, decode .w20 (formatM20 0x3#4 x) = .ok (.subM20 x, [])) ∧
  (∀ literal n, parseLiteral literal = .ok n →
    classifyLine [['S', 'U', 'B'], literal] = .ok (.instruction .sub n)) ∧
  classifyLine [['S', 'U', 'B']] = .ok (.instruction .sub 0) ∧
  (∀ (s : State) x, s.mode = .w4 → ∃ t, exec (.subM4 x) s = .next t ∧ t = { s with a := t.a } ∧
    t.a.toNat = (s.a.toNat + 256 - (s.mem.read x.toNat).toNat) % 256) ∧
  (∀ (s : State) x, s.mode = .w12 → ∃ t, exec (.subM12 x) s = .next t ∧ t = { s with a := t.a } ∧
    t.a.toNat = (s.a.toNat + 256 - (s.mem.read x.toNat).toNat) % 256) ∧
  (∀ (s : State) x, s.mode = .w20 → ∃ t, exec (.subM20 x) s = .next t ∧ t = { s with a := t.a } ∧
    t.a.toNat = (s.a.toNat + 256 - (s.mem.read x.toNat).toNat) % 256)

/-- R142, LDI: `A <- x mod 256` in every mode; no memory access, everything else unchanged, no exception. Its encodings in the three formats and its assembler syntax stand beside the effect. -/
def Obligations.LdiLoadsTheLowByteOfTheOperand : Prop :=
  (∀ x, decode .w4 (formatM4 0x5#4 x) = .ok (.ldiM4 x, [])) ∧
  (∀ x, decode .w12 (formatM12 0x5#4 x) = .ok (.ldiM12 x, [])) ∧
  (∀ x, decode .w20 (formatM20 0x5#4 x) = .ok (.ldiM20 x, [])) ∧
  (∀ literal n, parseLiteral literal = .ok n →
    classifyLine [['L', 'D', 'I'], literal] = .ok (.instruction .ldi n)) ∧
  classifyLine [['L', 'D', 'I']] = .ok (.instruction .ldi 0) ∧
  (∀ (s : State) x, s.mode = .w4 → ∃ t, exec (.ldiM4 x) s = .next t ∧ t = { s with a := t.a } ∧ t.a.toNat = x.toNat % 256) ∧
  (∀ (s : State) x, s.mode = .w12 → ∃ t, exec (.ldiM12 x) s = .next t ∧ t = { s with a := t.a } ∧ t.a.toNat = x.toNat % 256) ∧
  (∀ (s : State) x, s.mode = .w20 → ∃ t, exec (.ldiM20 x) s = .next t ∧ t = { s with a := t.a } ∧ t.a.toNat = x.toNat % 256)

/-- R150, JMP: `IP <- x`, whatever the advanced pointer holds; `A`, `MEM` and the rest unchanged, no exception. Its encodings in the three formats and its assembler syntax stand beside the effect. -/
def Obligations.JmpOverwritesTheInstructionPointer : Prop :=
  (∀ x, decode .w4 (formatM4 0x6#4 x) = .ok (.jmpM4 x, [])) ∧
  (∀ x, decode .w12 (formatM12 0x6#4 x) = .ok (.jmpM12 x, [])) ∧
  (∀ x, decode .w20 (formatM20 0x6#4 x) = .ok (.jmpM20 x, [])) ∧
  (∀ literal n, parseLiteral literal = .ok n →
    classifyLine [['J', 'M', 'P'], literal] = .ok (.instruction .jmp n)) ∧
  classifyLine [['J', 'M', 'P']] = .ok (.instruction .jmp 0) ∧
  (∀ (s : State) x, s.mode = .w4 → ∃ t, exec (.jmpM4 x) s = .next t ∧ t = { s with ip := t.ip } ∧ t.ip.toNat = x.toNat) ∧
  (∀ (s : State) x, s.mode = .w12 → ∃ t, exec (.jmpM12 x) s = .next t ∧ t = { s with ip := t.ip } ∧ t.ip.toNat = x.toNat) ∧
  (∀ (s : State) x, s.mode = .w20 → ∃ t, exec (.jmpM20 x) s = .next t ∧ t = { s with ip := t.ip } ∧ t.ip.toNat = x.toNat)

/-- OUT (R152): `OUT_TRACE <- OUT_TRACE ++ [A]`, all 8 bits; everything else unchanged. That the emit always succeeds and that the sink is a sequence of values is the spec's decision D4 (log 6). Its encodings in the three formats and its assembler syntax stand beside the effect. -/
def Obligations.OutAppendsTheAccumulatorToTheTrace : Prop :=
  (∀ x, decode .w4 (formatM4 0xE#4 x) = .ok (.outM4 x, [])) ∧
  (∀ x, decode .w12 (formatM12 0xE#4 x) = .ok (.outM12 x, [])) ∧
  (∀ x, decode .w20 (formatM20 0xE#4 x) = .ok (.outM20 x, [])) ∧
  (∀ literal n, parseLiteral literal = .ok n →
    classifyLine [['O', 'U', 'T'], literal] = .ok (.instruction .out n)) ∧
  classifyLine [['O', 'U', 'T']] = .ok (.instruction .out 0) ∧
  (∀ (s : State) x, exec (.outM4 x) s = .next { s with out := s.out ++ [s.a] }) ∧
  (∀ (s : State) x, exec (.outM12 x) s = .next { s with out := s.out ++ [s.a] }) ∧
  (∀ (s : State) x, exec (.outM20 x) s = .next { s with out := s.out ++ [s.a] })

/-- HLT (R153): `HALTED <- 1`, everything else unchanged; from then on there is no step. That the model says "no step" by the stop `halted` is its own choice (D5, log 5). Its encodings in the three formats and its assembler syntax stand beside the effect. -/
def Obligations.HltSetsHaltedAndNothingElse : Prop :=
  (∀ x, decode .w4 (formatM4 0xF#4 x) = .ok (.hltM4 x, [])) ∧
  (∀ x, decode .w12 (formatM12 0xF#4 x) = .ok (.hltM12 x, [])) ∧
  (∀ x, decode .w20 (formatM20 0xF#4 x) = .ok (.hltM20 x, [])) ∧
  (∀ literal n, parseLiteral literal = .ok n →
    classifyLine [['H', 'L', 'T'], literal] = .ok (.instruction .hlt n)) ∧
  classifyLine [['H', 'L', 'T']] = .ok (.instruction .hlt 0) ∧
  (∀ (s : State) x, exec (.hltM4 x) s = .next { s with halted := true } ∧ step { s with halted := true } = .fault .halted) ∧
  (∀ (s : State) x, exec (.hltM12 x) s = .next { s with halted := true } ∧ step { s with halted := true } = .fault .halted) ∧
  (∀ (s : State) x, exec (.hltM20 x) s = .next { s with halted := true } ∧ step { s with halted := true } = .fault .halted)

/-- R154, NOP: nothing beyond the advance, whatever the operand, no exception. Its encodings in the three formats and its assembler syntax stand beside the effect. -/
def Obligations.NopHasNoEffect : Prop :=
  (∀ x, decode .w4 (formatM4 0x0#4 x) = .ok (.nopM4 x, [])) ∧
  (∀ x, decode .w12 (formatM12 0x0#4 x) = .ok (.nopM12 x, [])) ∧
  (∀ x, decode .w20 (formatM20 0x0#4 x) = .ok (.nopM20 x, [])) ∧
  (∀ literal n, parseLiteral literal = .ok n →
    classifyLine [['N', 'O', 'P'], literal] = .ok (.instruction .nop n)) ∧
  classifyLine [['N', 'O', 'P']] = .ok (.instruction .nop 0) ∧
  (∀ (s : State) x, exec (.nopM4 x) s = .next s) ∧
  (∀ (s : State) x, exec (.nopM12 x) s = .next s) ∧
  (∀ (s : State) x, exec (.nopM20 x) s = .next s)

/-- R155: the seven unmapped nibbles, in every format, with every operand, in every state: no effect, no trap, no halt; DECODE reports `op = NOP`, `mapped = 0`. -/
def Obligations.UnmappedNibblesHaveNoEffect : Prop :=
  (∀ x, decode .w4 (formatM4 0x7#4 x) = .ok (.unmapped7M4 x, [])) ∧
  (∀ x, decode .w12 (formatM12 0x7#4 x) = .ok (.unmapped7M12 x, [])) ∧
  (∀ x, decode .w20 (formatM20 0x7#4 x) = .ok (.unmapped7M20 x, [])) ∧
  (∀ x, decode .w4 (formatM4 0x8#4 x) = .ok (.unmapped8M4 x, [])) ∧
  (∀ x, decode .w12 (formatM12 0x8#4 x) = .ok (.unmapped8M12 x, [])) ∧
  (∀ x, decode .w20 (formatM20 0x8#4 x) = .ok (.unmapped8M20 x, [])) ∧
  (∀ x, decode .w4 (formatM4 0x9#4 x) = .ok (.unmapped9M4 x, [])) ∧
  (∀ x, decode .w12 (formatM12 0x9#4 x) = .ok (.unmapped9M12 x, [])) ∧
  (∀ x, decode .w20 (formatM20 0x9#4 x) = .ok (.unmapped9M20 x, [])) ∧
  (∀ x, decode .w4 (formatM4 0xA#4 x) = .ok (.unmappedAM4 x, [])) ∧
  (∀ x, decode .w12 (formatM12 0xA#4 x) = .ok (.unmappedAM12 x, [])) ∧
  (∀ x, decode .w20 (formatM20 0xA#4 x) = .ok (.unmappedAM20 x, [])) ∧
  (∀ x, decode .w4 (formatM4 0xB#4 x) = .ok (.unmappedBM4 x, [])) ∧
  (∀ x, decode .w12 (formatM12 0xB#4 x) = .ok (.unmappedBM12 x, [])) ∧
  (∀ x, decode .w20 (formatM20 0xB#4 x) = .ok (.unmappedBM20 x, [])) ∧
  (∀ x, decode .w4 (formatM4 0xC#4 x) = .ok (.unmappedCM4 x, [])) ∧
  (∀ x, decode .w12 (formatM12 0xC#4 x) = .ok (.unmappedCM12 x, [])) ∧
  (∀ x, decode .w20 (formatM20 0xC#4 x) = .ok (.unmappedCM20 x, [])) ∧
  (∀ x, decode .w4 (formatM4 0xD#4 x) = .ok (.unmappedDM4 x, [])) ∧
  (∀ x, decode .w12 (formatM12 0xD#4 x) = .ok (.unmappedDM12 x, [])) ∧
  (∀ x, decode .w20 (formatM20 0xD#4 x) = .ok (.unmappedDM20 x, [])) ∧
  (∀ (s : State) x, exec (.unmapped7M4 x) s = .next s) ∧
  (∀ (s : State) x, exec (.unmapped7M12 x) s = .next s) ∧
  (∀ (s : State) x, exec (.unmapped7M20 x) s = .next s) ∧
  (∀ (s : State) x, exec (.unmapped8M4 x) s = .next s) ∧
  (∀ (s : State) x, exec (.unmapped8M12 x) s = .next s) ∧
  (∀ (s : State) x, exec (.unmapped8M20 x) s = .next s) ∧
  (∀ (s : State) x, exec (.unmapped9M4 x) s = .next s) ∧
  (∀ (s : State) x, exec (.unmapped9M12 x) s = .next s) ∧
  (∀ (s : State) x, exec (.unmapped9M20 x) s = .next s) ∧
  (∀ (s : State) x, exec (.unmappedAM4 x) s = .next s) ∧
  (∀ (s : State) x, exec (.unmappedAM12 x) s = .next s) ∧
  (∀ (s : State) x, exec (.unmappedAM20 x) s = .next s) ∧
  (∀ (s : State) x, exec (.unmappedBM4 x) s = .next s) ∧
  (∀ (s : State) x, exec (.unmappedBM12 x) s = .next s) ∧
  (∀ (s : State) x, exec (.unmappedBM20 x) s = .next s) ∧
  (∀ (s : State) x, exec (.unmappedCM4 x) s = .next s) ∧
  (∀ (s : State) x, exec (.unmappedCM12 x) s = .next s) ∧
  (∀ (s : State) x, exec (.unmappedCM20 x) s = .next s) ∧
  (∀ (s : State) x, exec (.unmappedDM4 x) s = .next s) ∧
  (∀ (s : State) x, exec (.unmappedDM12 x) s = .next s) ∧
  (∀ (s : State) x, exec (.unmappedDM20 x) s = .next s) ∧
  (∀ n x, 7 ≤ n.toNat → n.toNat ≤ 13 →
    codecDecode .w4 (formatM4 n x) = { op := .nop, nib := n, mapped := false, x := x.toNat }) ∧
  (∀ n x, 7 ≤ n.toNat → n.toNat ≤ 13 →
    codecDecode .w12 (formatM12 n x) = { op := .nop, nib := n, mapped := false, x := x.toNat }) ∧
  (∀ n x, 7 ≤ n.toNat → n.toNat ≤ 13 →
    codecDecode .w20 (formatM20 n x) = { op := .nop, nib := n, mapped := false, x := x.toNat })

/-- R70: the operand bits of NOP, OUT, HLT and the unmapped nibbles are free; the assembler writes 0 for a bare opcode and the masked operand otherwise. -/
def Obligations.IgnoredOperandsDoNotChangeTheEffect : Prop :=
  (∀ (i j : Instr) (s : State), i.mode = j.mode → i.nibble = j.nibble →
    i.nibble ∈ [0x0#4, 0x7#4, 0x8#4, 0x9#4, 0xA#4, 0xB#4, 0xC#4, 0xD#4, 0xE#4, 0xF#4] → exec i s = exec j s) ∧
  (∀ op ∈ [Op.nop, Op.out, Op.hlt], ∀ m, (m, op) ∈ mnemonicTable →
    classifyLine [m] = .ok (.instruction op 0) ∧
    ∀ literal n, parseLiteral literal = .ok n → ∀ W,
      classifyLine [m, literal] = .ok (.instruction op n) ∧ slot W (.instruction op n) = codecEncode W op (n % 2 ^ W.width)) ∧
  slot .w4 (.instruction .out 5) = [0xE5#8]

/-- R27, the table of who reads and who writes `A`. Writes, no: `A` is unchanged; yes: it can change. Reads, no: the effect does not depend on it; yes: a different `A` gives a different result. The unmapped nibbles have `op = NOP`. -/
def Obligations.WhoReadsAndWritesTheAccumulator : Prop :=
  (∀ (i : Instr) (s t : State), exec i s = .next t → i.op ∈ [Op.sta, Op.out, Op.jmp, Op.hlt, Op.nop] → t.a = s.a) ∧
  (∀ (i : Instr), i.op ∈ [Op.lda, Op.add, Op.sub, Op.ldi] → ∃ s t, exec i s = .next t ∧ t.a ≠ s.a) ∧
  (∀ (i : Instr) (s : State) (v : Byte), i.op ∈ [Op.lda, Op.ldi] → exec i { s with a := v } = exec i s) ∧
  (∀ (i : Instr) (s t : State) (v : Byte), i.op ∈ [Op.jmp, Op.hlt, Op.nop] → exec i s = .next t →
    exec i { s with a := v } = .next { t with a := v }) ∧
  (∀ (i : Instr) (s t u : State) (v : Byte), exec i s = .next t → exec i { s with a := v } = .next u → v ≠ s.a →
    (i.op ∈ [Op.add, Op.sub] → u.a ≠ t.a) ∧ (i.op = .out → u.out ≠ t.out) ∧
    (i.op = .sta → u.mem.read (effectiveAddress s.mode i.operand) ≠ t.mem.read (effectiveAddress s.mode i.operand)))

/-- A step of a running machine is the effect of the instruction its `B` bytes at `IP` decode to, on the state with `IP` advanced by `B` (R121 to R125). The wraps modulo `2^W` are the spec's decisions D1 and D2 (logs 3 and 4). -/
def Obligations.StepRunsTheDecodedInstruction : Prop :=
  ∀ (s : State) (i : Instr), s.halted = false →
    decode s.mode ((List.range s.mode.instrBytes).map fun j => s.mem.read ((s.ip.toNat + j) % 2 ^ s.mode.width)) = .ok (i, []) →
    step s = exec i { s with ip := BitVec.ofNat 20 ((s.ip.toNat + s.mode.instrBytes) % 2 ^ s.mode.width) }

/-- The refinement of R121's STEP: the machine over 48 instruction constructors and a sparse memory does exactly what the pseudocode over ENCODE/DECODE's `op` and `x` says, for every well-formed running state. The wraps are the spec's decisions D1 and D2 (logs 3, 4), `OUT_TRACE` D4 (log 6). -/
def Obligations.StepFollowsTheSequencerPseudocode : Prop :=
  ∀ s : State, s.Inv → s.halted = false →
    let B := s.mode.instrBytes
    let bs := (List.range B).map fun j => s.mem.read ((s.ip.toNat + j) % 2 ^ s.mode.width)
    let d := codecDecode s.mode bs
    ∃ t, step s = .next t ∧ t.mode = s.mode ∧
      t.ip.toNat = (if d.op = .jmp then d.x else (s.ip.toNat + B) % 2 ^ s.mode.width) ∧
      t.a.toNat = (match d.op with
        | .lda => (s.mem.read d.x).toNat
        | .add => (s.a.toNat + (s.mem.read d.x).toNat) % 256
        | .sub => (s.a.toNat + 256 - (s.mem.read d.x).toNat) % 256
        | .ldi => d.x % 256
        | .sta | .jmp | .out | .hlt | .nop => s.a.toNat) ∧
      (∀ k, t.mem.read k = if d.op = .sta ∧ k = d.x then s.a else s.mem.read k) ∧
      t.out = (if d.op = .out then s.out ++ [s.a] else s.out) ∧
      t.halted = decide (d.op = .hlt)

/-- The step is total and deterministic, for every running state (any `IP`, any `A`, any memory): R126. Beyond R126, every instruction of all 48 rows completes in every state; that a term of another mode's format runs too is the model's choice (log 7). -/
def Obligations.EveryRunningStateHasExactlyOneSuccessor : Prop :=
  (∀ s : State, s.halted = false → ∃ t, step s = .next t ∧ (∀ u, step s = .next u → u = t) ∧
    (∀ f, step s ≠ .fault f) ∧ (∀ r, step s ≠ .refused r)) ∧
  (∀ (i : Instr) (s : State), ∃ t, exec i s = .next t)

/-- No step happens exactly when `HALTED = 1`, and every part of the state keeps its value (R31, R127; the spec's decision D5). That "no step" is the stop named `halted` is the model's choice (log 5). -/
def Obligations.HaltedMeansNoStep : Prop :=
  ∀ s : State, (s.halted = true ↔ step s = .fault .halted) ∧ (s.halted = true → ∀ n, run n s = s)

/-- Every step keeps memory canonical and inside the image of `2^W` bytes (R30, R40, R47) and `IP < 2^W` (R23; D1, log 3). -/
def Obligations.StepKeepsTheInvariant : Prop :=
  ∀ s t : State, s.Inv → step s = .next t → t.Inv

/-- The invariant holds at reset, in the mode log 1 chooses and in every other. -/
def Obligations.ResetSatisfiesTheInvariant : Prop :=
  Sys2Proof.Machine.State.reset.Inv ∧ (∀ W, (State.start W []).Inv)

/-- The whole-machine rules: `W` is immutable (R20), only STA writes `MEM` (R30), only OUT the trace (R32), only HLT `HALTED` (R31), only LDA/ADD/SUB/LDI `A` (R27), and JMP is the only control transfer (R151), from every state. The wrap is D1 (log 3). -/
def Obligations.EachPieceOfStateHasOneWriter : Prop :=
  ∀ s t : State, step s = .next t →
    t.mode = s.mode ∧
    (s.fetchInstr.op ∉ [Op.lda, Op.add, Op.sub, Op.ldi] → t.a = s.a) ∧
    (s.fetchInstr.op ≠ .sta → t.mem = s.mem) ∧
    (s.fetchInstr.op ≠ .out → t.out = s.out) ∧
    (s.fetchInstr.op ≠ .hlt → t.halted = false) ∧
    (s.fetchInstr.op = .hlt → t.halted = true) ∧
    (s.fetchInstr.op ≠ .jmp → t.ip.toNat = (s.ip.toNat + s.mode.instrBytes) % 2 ^ s.mode.width) ∧
    (s.fetchInstr.op = .jmp → t.ip.toNat = s.fetchInstr.operand)

/-- The output port (R157, the spec's own presentation D7): `out_valid` is asserted with `out_value = A` during an OUT and at no other time, and `OUT_TRACE` (D4) is exactly the values it has carried, oldest first, so a trace only grows, by at most one value a step. -/
def Obligations.OutputPortMatchesTheTrace : Prop :=
  (∀ s t : State, step s = .next t → t.out = s.out ++ (outPort s).toList) ∧
  (∀ (s : State) (v : Byte), outPort s = some v ↔ s.halted = false ∧ s.fetchInstr.op = .out ∧ v = s.a) ∧
  (∀ (n : Nat) (s : State), ∃ emitted, (run n s).out = s.out ++ emitted ∧ emitted.length ≤ n)

/-- Instruction-fetch coherence (R52, which the spec marks as derived): the very next fetch after an STA sees the stored byte wherever it covers the address, and the old bytes elsewhere. That byte `j` of a fetch is at `(IP + j) mod 2^W`, and that the STA itself was fetched before its store, is the spec's decision D2 (R45, R48; log 4). The pointer of that fetch is the one the step left. -/
def Obligations.AStoreIsSeenByTheNextFetch : Prop :=
  ∀ s t : State, s.fetchInstr.op = .sta → step s = .next t →
    t.fetch = (List.range s.mode.instrBytes).map fun j =>
      let k := (t.ip.toNat + j) % 2 ^ s.mode.width
      if k = s.fetchInstr.operand then s.a else s.mem.read k

/-- Only HLT ends a run (R120, R128, C4): from every state every step on the way answers a next state until a HLT has been executed, and the run then keeps the state that HLT left (D5, log 5). -/
def Obligations.ARunStopsOnlyByHlt : Prop :=
  (∀ (n : Nat) (s : State), SafeRun n s) ∧
  (∀ (n : Nat) (s : State), s.halted = false → (run n s).halted = true →
    ∃ k, k < n ∧ (run k s).halted = false ∧ (run k s).fetchInstr.op = .hlt ∧ step (run k s) = .next (run n s)) ∧
  (∀ (m n : Nat) (s : State), run (m + n) s = run n (run m s))

/-- Zero-filled memory is a run of NOPs in every mode (R154, R49), and straight-line flow visits `IP + nB` modulo `2^W` (R129; the wrap is D1, log 3). -/
def Obligations.ZeroMemoryIsARunOfNops : Prop :=
  ∀ (n : Nat) (s : State), s.mem = [] → s.halted = false → s.ip.toNat < s.mode.memSize →
    run n s = { s with ip := (run n s).ip } ∧
    (run n s).ip.toNat = (s.ip.toNat + n * s.mode.instrBytes) % 2 ^ s.mode.width

/-- The model's own convention for placing one instruction (log 8): the word of the opcode table, read as one big-endian number, is decoded, re-encoded and run as that instruction by the very next step. -/
def Obligations.APlacedWordRunsNext : Prop :=
  ∀ (s : State) (W : Mode) (w : Nat), w < 2 ^ (8 * W.instrBytes) →
    ∃ i, decodeTableWord (8 * W.instrBytes) w = some i ∧ i.wellFormed W = true ∧ packBytes (encode i) = w ∧
      (s.withFetchWord (8 * W.instrBytes) w).fetchInstr = i ∧
      step (s.withFetchWord (8 * W.instrBytes) w) = exec i (s.withFetchWord (8 * W.instrBytes) w).advance

/-- The writer and the loader agree (R184 to R192): a container of records that fit loads to its mode and to the image in which the last record that covers an address decides its byte and every other byte is 0 (R188, R191, U15), and the reset event starts from it (R180; `A` = 0 is D3, log 2). Marker values are ASCII (G1, log 10), loader details D14 (log 10). -/
def Obligations.LoadingAWrittenContainerGivesItsImage : Prop :=
  ∀ (W : Mode) (rs : List Record), (∀ r ∈ rs, r.addr + r.payload.length ≤ 2 ^ W.width) →
    ∃ m, load (writeContainer W rs) = .ok (W, m) ∧ (∀ k, m.read k = imageByte rs k) ∧
      launch (writeContainer W rs) = .ok (State.start W m) ∧ (State.start W m).Inv

/-- The range check (R189): the first record with `address + length > 2^W`, the sum not reduced (D14), fails the load with `MemoryRangeError` whatever precedes and follows it, and nothing starts. -/
def Obligations.ARecordBeyondMemoryFailsTheLoad : Prop :=
  ∀ (W : Mode) (before : List Record) (r : Record) (tail : List Byte),
    (∀ q ∈ before, q.addr + q.payload.length ≤ 2 ^ W.width) →
    r.addr < 2 ^ 32 → r.payload.length < 2 ^ 32 → 2 ^ W.width < r.addr + r.payload.length →
    load (writeContainer W (before ++ [r]) ++ tail) = .error .memoryRangeError ∧
    launch (writeContainer W (before ++ [r]) ++ tail) = .error .memoryRangeError

/-- A partial trailing record is an `IOError` (R188, R190): cut anywhere inside the record, header or payload. -/
def Obligations.ATruncatedRecordFailsTheLoad : Prop :=
  ∀ (W : Mode) (before : List Record) (r : Record) (n : Nat),
    (∀ q ∈ before, q.addr + q.payload.length ≤ 2 ^ W.width) → r.addr + r.payload.length ≤ 2 ^ W.width →
    0 < n → n < (recordBytes r).length →
    load (writeContainer W before ++ (recordBytes r).take n) = .error .ioError

/-- Header checks (R187, R190): truncated header or marker mismatch is `HeaderError`, a mode byte other than 4, 12, 20 `AddressWidthError`; byte 3 is not examined (D14) and a container without records is valid. The marker values are ASCII (G1, log 10). -/
def Obligations.HeaderChecksOfTheLoader : Prop :=
  (∀ stream, stream.length < 4 → load stream = .error .headerError) ∧
  (∀ b0 b1 b2 b3 rest, b0 ≠ 0x42#8 ∨ b1 ≠ 0x45#8 → load (b0 :: b1 :: b2 :: b3 :: rest) = .error .headerError) ∧
  (∀ b2 b3 rest, b2.toNat ∉ [4, 12, 20] → load (0x42#8 :: 0x45#8 :: b2 :: b3 :: rest) = .error .addressWidthError) ∧
  (∀ W b3, load [0x42#8, 0x45#8, BitVec.ofNat 8 W.width, b3] = .ok (W, []))

/-- The reset event (R180): the mode and image of the container, `IP` 0, `A` = `ACC_RESET` = 0 (D3, log 2), running, nothing emitted; every launched state meets the invariant. `State.reset` is what the record-free container of the mode log 1 chooses gives; that container is written with the header layout of R184 and the marker bytes 0x42 and 0x45, which are PRESUMED to be ASCII (G1, log 10). -/
def Obligations.LaunchIsLoadAndReset : Prop :=
  (∀ stream s, launch stream = .ok s ↔
    ∃ W m, load stream = .ok (W, m) ∧ s = { mode := W, ip := 0#20, a := 0x00#8, mem := m, halted := false, out := [] }) ∧
  (∀ stream s, launch stream = .ok s → s.Inv) ∧
  launch [0x42#8, 0x45#8, 0x0C#8, 0x00#8] = .ok Sys2Proof.Machine.State.reset

/-- The literal parser (R81): decimal, `0b`/`0B` and `0x`/`0X` tokens of any length read as their exact value, hexadecimal digits in either case; a value above `LITERAL_MAX` fails (D20, log 11). -/
def Obligations.LiteralsAreReadInTheirBase : Prop :=
  (∀ ds : List (Fin 10), ds ≠ [] → ds.foldl (fun v d => v * 10 + d.val) 0 ≤ 2 ^ 32 - 1 →
    parseLiteral (ds.map fun d => Char.ofNat (48 + d.val)) = .ok (ds.foldl (fun v d => v * 10 + d.val) 0)) ∧
  (∀ (p : Char) (ds : List (Fin 2)), p ∈ ['b', 'B'] → ds ≠ [] → ds.foldl (fun v d => v * 2 + d.val) 0 ≤ 2 ^ 32 - 1 →
    parseLiteral ('0' :: p :: ds.map fun d => Char.ofNat (48 + d.val)) = .ok (ds.foldl (fun v d => v * 2 + d.val) 0)) ∧
  (∀ (p : Char) (ds : List (Fin 16 × Bool)), p ∈ ['x', 'X'] → ds ≠ [] →
    ds.foldl (fun v d => v * 16 + d.1.val) 0 ≤ 2 ^ 32 - 1 →
    parseLiteral ('0' :: p :: ds.map fun d =>
      Char.ofNat (if d.1.val < 10 then 48 + d.1.val else if d.2 then 55 + d.1.val else 87 + d.1.val)) =
      .ok (ds.foldl (fun v d => v * 16 + d.1.val) 0)) ∧
  (∀ ds : List (Fin 10), 2 ^ 32 - 1 < ds.foldl (fun v d => v * 10 + d.val) 0 →
    parseLiteral (ds.map fun d => Char.ofNat (48 + d.val)) = .error .numberFormatError) ∧
  parseLiteral ['0', 'x', 'F', 'G'] = .error .numberFormatError ∧ parseLiteral ['0', 'b', '2'] = .error .numberFormatError ∧
  parseLiteral ['4', ' ', '2'] = .error .numberFormatError ∧ parseLiteral [' ', '4', '2', ' '] = .ok 42

/-- R82: two segments are opcode and operand; one segment beginning with an uppercase ASCII letter is a bare opcode with operand 0, otherwise a raw byte masked to 8 bits; zero or more than two are a `LineError`. -/
def Obligations.StatementsAreClassifiedBySegments : Prop :=
  (∀ word operand op v, lookupMnemonic word = .ok op → parseLiteral operand = .ok v →
    classifyLine [word, operand] = .ok (.instruction op v)) ∧
  (∀ c cs op, 'A' ≤ c → c ≤ 'Z' → lookupMnemonic (c :: cs) = .ok op → classifyLine [c :: cs] = .ok (.instruction op 0)) ∧
  (∀ c cs v, ¬ ('A' ≤ c ∧ c ≤ 'Z') → parseLiteral (c :: cs) = .ok v → classifyLine [c :: cs] = .ok (.raw (BitVec.ofNat 8 (v % 256)))) ∧
  (∀ segments : List (List Char), segments.length = 0 ∨ 2 < segments.length → classifyLine segments = .error .lineError)

/-- Opcode lookup (R83): case-insensitive, on the first three characters only; shorter segments match nothing and longer ones match on their prefix (D21, log 12). -/
def Obligations.MnemonicLookupUsesThreeCharactersInAnyCase : Prop :=
  (∀ word, lookupMnemonic (word.map Char.toUpper) = lookupMnemonic word) ∧
  (∀ word rest : List Char, 3 ≤ word.length → lookupMnemonic (word ++ rest) = lookupMnemonic word) ∧
  (∀ word : List Char, word.length < 3 → lookupMnemonic word = .error .opcodeError) ∧
  (∀ word op, lookupMnemonic word = .ok op ↔ ∃ m, (m, op) ∈ mnemonicTable ∧ (word.take 3).map Char.toUpper = m) ∧
  lookupMnemonic ['M', 'O', 'V'] = .error .opcodeError

/-- The block grammar (R86): an address literal, then lines separated by `;` between braces, with an optional `;` before the closing brace (C9). -/
def Obligations.ABlockIsReadLineByLine : Prop :=
  ∀ (addrToken : List Char) (addr : Nat) (stmts : List (List (List Char))) (lines : List Line) (closed : Bool) (rest : List Token),
    parseLiteral addrToken = .ok addr → stmts ≠ [] →
    List.Forall₂ (fun st l => classifyLine st = .ok l) stmts lines →
    readBlock (.word addrToken :: .openBrace ::
      ((stmts.map fun st => st.map Token.word).intersperse [Token.semicolon]).flatten ++
        (if closed then [Token.semicolon] else []) ++ .closeBrace :: rest) =
      .ok ({ addr := addr, lines := lines }, rest)

/-- Placement from source line to memory (R88, R91, R111, R188): line `n` of a block at address `a` occupies `a + n*B` to `a + n*B + B - 1` of the loaded image, with the bytes of its slot, and everything outside the block is 0. The slot of a raw line is D6 (log 9). -/
def Obligations.AnAssembledBlockLandsSlotBySlot : Prop :=
  ∀ (W : Mode) (b : Block), b.addr + b.lines.length * W.instrBytes ≤ 2 ^ W.width →
    ∃ m, load (assembledContainer W [b]) = .ok (W, m) ∧
      (∀ (n : Nat) (l : Line), b.lines[n]? = some l → ∀ j, j < W.instrBytes →
        (slot W l)[j]? = some (m.read (b.addr + n * W.instrBytes + j))) ∧
      (∀ k, k < b.addr ∨ b.addr + b.lines.length * W.instrBytes ≤ k → m.read k = 0x00#8)

/-- The segments of a text (R82): white space separates them, a run of other characters is one, and white space alone gives none. Which characters are white space is log 11; that a line break is one of them, so that a statement may span source lines, is log 23. -/
def Obligations.SegmentsAreTheWordsBetweenWhiteSpace : Prop :=
  (∀ left blank right : List Char, blank ≠ [] → (∀ c ∈ blank, c ∈ [' ', '\t', '\r', '\n']) →
    segments (left ++ blank ++ right) = segments left ++ segments right) ∧
  (∀ word : List Char, word ≠ [] → (∀ c ∈ word, c ∉ [' ', '\t', '\r', '\n']) → segments word = [word]) ∧
  (∀ blank : List Char, (∀ c ∈ blank, c ∈ [' ', '\t', '\r', '\n']) → segments blank = [])

/-- The lines of a block in its source text (R82, R86): a line is the text between the opening brace or a `;` and the next `;` or the closing brace, split into segments and classified, with an optional `;` and white space before the closing brace (C9); the reading goes on right after that brace. The first line whose classification fails aborts the block with its error. The braces are U+007B and U+007D; white space and line breaks are logs 11 and 23, the errors' order log 13. -/
def Obligations.ALineIsTheTextBetweenSemicolons : Prop :=
  ∀ (addrText addrToken : List Char) (addr : Nat) (stmts : List (List Char)) (lines : List Line) (rest : List Char),
    (∀ st ∈ addrText :: stmts, ∀ c ∈ st, c ∉ [';', Char.ofNat 0x7B, Char.ofNat 0x7D]) →
    segments addrText = [addrToken] → parseLiteral addrToken = .ok addr →
    List.Forall₂ (fun st l => classifyLine (segments st) = .ok l) stmts lines →
    (∀ closing : List Char, stmts ≠ [] →
      (closing = [] ∨ ∃ blank, closing = ';' :: blank ∧ ∀ c ∈ blank, c ∈ [' ', '\t', '\r', '\n']) →
      readBlock (tokenize [] (addrText ++ Char.ofNat 0x7B :: (stmts.intersperse [';']).flatten ++ closing ++
        Char.ofNat 0x7D :: rest)) = .ok ({ addr := addr, lines := lines }, tokenize [] rest)) ∧
    (∀ (bad : List Char) (e : AsmError), (∀ c ∈ bad, c ∉ [';', Char.ofNat 0x7B, Char.ofNat 0x7D]) →
      classifyLine (segments bad) = .error e →
      readBlock (tokenize [] (addrText ++ Char.ofNat 0x7B :: (stmts.flatMap fun st => st ++ [';']) ++ bad ++ ';' :: rest)) =
        .error e)

/-- Comments (R87): a text without `#` is tokenized as it stands; a comment up to the newline, or up to the end of the source, changes nothing, whatever it holds. That only the newline ends it and that its `;` goes with it is log 22. -/
def Obligations.CommentsDoNotChangeTheAssembly : Prop :=
  (∀ source : List Char, '#' ∉ source → assembleText source = assemble (tokenize [] source)) ∧
  (∀ before comment after : List Char, '\n' ∉ comment →
    assembleText (before ++ '#' :: comment ++ '\n' :: after) = assembleText (before ++ '\n' :: after)) ∧
  (∀ before comment : List Char, '\n' ∉ comment → assembleText (before ++ '#' :: comment) = assembleText before)
end

