-- ==== Sys2Proof/Laws/Mode.lean ====
section
/-! SUPPORT. Laws of the mode's derived quantities (R21) and of the operand forms (R132, R142). -/

namespace Sys2Proof

theorem Mode.memSize_pos (W : Mode) : 0 < W.memSize := Nat.two_pow_pos _

theorem Mode.memSize_le (W : Mode) : W.memSize ≤ 2 ^ 20 := by cases W <;> decide

theorem Mode.instrBytes_pos (W : Mode) : 0 < W.instrBytes := by cases W <;> decide

/-- There are no padding bits: an instruction's bits are the nibble and the `W` operand bits (R21, R62). -/
theorem Mode.instrBits (W : Mode) : 8 * W.instrBytes = W.width + 4 := by cases W <;> rfl

theorem Mode.fieldBits (W : Mode) : 8 * W.instrBytes - 4 = W.width := by cases W <;> rfl

theorem Mode.ofBits_instrBits (W : Mode) : Mode.ofBits (8 * W.instrBytes) = some W := by cases W <;> rfl

theorem Mode.ofNumber_width (W : Mode) : Mode.ofNumber W.width = some W := by cases W <;> rfl

theorem Mode.ofNumber_eq_none {n : Nat} (h : n ∉ [4, 12, 20]) : Mode.ofNumber n = none := by
  unfold Mode.ofNumber
  split <;> simp_all

namespace Machine

theorem effectiveAddress_lt (W : Mode) (x : Nat) : effectiveAddress W x < W.memSize :=
  Nat.mod_lt _ W.memSize_pos

/-- For an operand of the machine's own mode the effective address is the operand itself (R47, R132). -/
theorem effectiveAddress_of_lt {W : Mode} {x : Nat} (h : x < W.memSize) : effectiveAddress W x = x :=
  Nat.mod_eq_of_lt h

/-- An address of the image is held exactly by the 20-bit address register. -/
theorem toNat_addr_of_lt {W : Mode} {k : Nat} (h : k < W.memSize) : (BitVec.ofNat 20 k : Addr).toNat = k := by
  rw [BitVec.toNat_ofNat]
  exact Nat.mod_eq_of_lt (h.trans_le W.memSize_le)

theorem toNat_immediate (x : Nat) : (immediate x).toNat = x % 256 := BitVec.toNat_ofNat ..

end Machine

/-- The operand of an instruction has the width of its mode (R63). -/
theorem Instr.operand_lt (i : Instr) : i.operand < i.mode.memSize := by
  cases i <;> exact BitVec.isLt _

end Sys2Proof
end

