-- ==== Sys2Proof/Laws/Codec.lean ====
section
/-! SUPPORT. Laws of the codec: packing and unpacking bytes, and DECODE of packed fields (R61, R102, R104). -/

namespace Sys2Proof

theorem packBytes_append_byte (bs : List Byte) (b : Byte) : packBytes (bs ++ [b]) = packBytes bs * 256 + b.toNat := by
  simp [packBytes]

theorem unpackBytes_length (n I : Nat) : (unpackBytes n I).length = n := by simp [unpackBytes]

/-- The last byte of `n + 1` is the low 8 bits, the ones before it are the bytes of the rest. -/
theorem unpackBytes_succ (n I : Nat) : unpackBytes (n + 1) I = unpackBytes n (I >>> 8) ++ [BitVec.ofNat 8 I] := by
  unfold unpackBytes
  rw [List.range_succ, List.map_append]
  congr 1
  · refine List.map_congr_left fun i hi => ?_
    have := List.mem_range.1 hi
    rw [← Nat.shiftRight_add]
    congr 2
    omega
  · simp

theorem packBytes_unpackBytes (n I : Nat) : packBytes (unpackBytes n I) = I % 2 ^ (8 * n) := by
  induction n generalizing I with
  | zero => simp [unpackBytes, packBytes, Nat.mod_one]
  | succ n ih =>
    rw [unpackBytes_succ, packBytes_append_byte, ih, BitVec.toNat_ofNat, Nat.shiftRight_eq_div_pow]
    rw [show 8 * (n + 1) = 8 + 8 * n by omega, pow_add, Nat.mod_mul]
    omega

theorem packBytes_lt (bs : List Byte) : packBytes bs < 2 ^ (8 * bs.length) := by
  induction bs using List.reverseRecOn with
  | nil => simp [packBytes]
  | append_singleton bs b ih =>
    rw [packBytes_append_byte, List.length_append, List.length_singleton, Nat.mul_add, pow_add]
    have := b.isLt
    omega

theorem unpackBytes_packBytes (bs : List Byte) : unpackBytes bs.length (packBytes bs) = bs := by
  induction bs using List.reverseRecOn with
  | nil => simp [unpackBytes]
  | append_singleton bs b ih =>
    have hb := b.isLt
    have hshift : (packBytes bs * 256 + b.toNat) >>> 8 = packBytes bs := by
      rw [Nat.shiftRight_eq_div_pow]; omega
    have hlow : BitVec.ofNat 8 (packBytes bs * 256 + b.toNat) = b := by
      apply BitVec.eq_of_toNat_eq; rw [BitVec.toNat_ofNat]; omega
    rw [List.length_append, List.length_singleton, unpackBytes_succ, packBytes_append_byte, hshift, ih, hlow]

/-- `(nib << W) | (x mod 2^W)` as an addition. -/
theorem packFields_number (W : Mode) (nib : Nibble) (x : Nat) :
    packBytes (packFields W nib x) = nib.toNat * 2 ^ W.width + x % 2 ^ W.width := by
  have hx := Nat.mod_lt x (Nat.two_pow_pos W.width)
  have hn := nib.isLt
  rw [packFields, packBytes_unpackBytes, W.instrBits, ← Nat.shiftLeft_add_eq_or_of_lt hx, Nat.shiftLeft_eq, pow_add]
  apply Nat.mod_eq_of_lt
  have := Nat.mul_le_mul_right (2 ^ W.width) (Nat.le_of_lt_succ hn : nib.toNat ≤ 15)
  omega

theorem packFields_length (W : Mode) (nib : Nibble) (x : Nat) : (packFields W nib x).length = W.instrBytes :=
  unpackBytes_length _ _

/-- DECODE looks at the first `B` bytes only (R113). -/
theorem codecDecode_take (W : Mode) (bs : List Byte) : codecDecode W (bs.take W.instrBytes) = codecDecode W bs := by
  simp only [codecDecode, List.take_take, Nat.min_self]

/-- What DECODE answers, said of the number its `B` bytes are (R104). -/
theorem codecDecode_eq (W : Mode) (bs : List Byte) (h : bs.length = W.instrBytes) :
    codecDecode W bs =
      { op := (opcodeOf (BitVec.ofNat 4 (packBytes bs / 2 ^ W.width))).getD .nop
        nib := BitVec.ofNat 4 (packBytes bs / 2 ^ W.width)
        mapped := (opcodeOf (BitVec.ofNat 4 (packBytes bs / 2 ^ W.width))).isSome
        x := packBytes bs % 2 ^ W.width } := by
  rw [codecDecode, ← h, List.take_length, h, W.fieldBits, Nat.shiftRight_eq_div_pow, Nat.mod_mod]

/-- DECODE undoes the packing of any nibble and operand, whatever bytes follow. -/
theorem codecDecode_packFields (W : Mode) (nib : Nibble) (x : Nat) (rest : List Byte) :
    codecDecode W (packFields W nib x ++ rest) =
      { op := (opcodeOf nib).getD .nop, nib := nib, mapped := (opcodeOf nib).isSome, x := x % 2 ^ W.width } := by
  have hpos := Nat.two_pow_pos W.width
  have hx := Nat.mod_lt x hpos
  have hdiv : (nib.toNat * 2 ^ W.width + x % 2 ^ W.width) / 2 ^ W.width = nib.toNat := by
    rw [Nat.mul_comm, Nat.mul_add_div hpos, Nat.div_eq_of_lt hx, Nat.add_zero]
  rw [← codecDecode_take, List.take_append_of_le_length (packFields_length ..).ge,
    List.take_of_length_le (packFields_length ..).le, codecDecode_eq W _ (packFields_length ..), packFields_number, hdiv]
  simp

theorem codecDecode_x_lt (W : Mode) (bs : List Byte) : (codecDecode W bs).x < 2 ^ W.width :=
  Nat.mod_lt _ (Nat.two_pow_pos _)

/-- `opcode_of` inverts `code` (R108). -/
@[simp] theorem opcodeOf_code (op : Op) : opcodeOf op.code = some op := by cases op <;> rfl

theorem opcodeOf_eq_some {n : Nibble} {op : Op} (h : opcodeOf n = some op) : op.code = n := by
  revert h; revert op; revert n; unfold opcodeOf; decide +revert

/-- The bytes a decoder accepted start with `B` bytes and the rest is what follows them. -/
theorem decode_eq_ok {W : Mode} {bs rest : List Byte} {i : Instr} (h : decode W bs = .ok (i, rest)) :
    W.instrBytes ≤ bs.length ∧ i = decodeFetched W bs ∧ rest = bs.drop W.instrBytes := by
  unfold decode at h
  split at h
  · cases h
  · cases h; exact ⟨by omega, rfl, rfl⟩

/-! ### The format tables of R61 -/

/-- Lists of bytes of one length are equal if the numbers they are are equal. -/
theorem packBytes_injective {a b : List Byte} (h : a.length = b.length) (e : packBytes a = packBytes b) : a = b := by
  rw [← unpackBytes_packBytes a, ← unpackBytes_packBytes b, h, e]

theorem formatM4_eq (nib : Nibble) (x : BitVec 4) : formatM4 nib x = packFields .w4 nib x.toNat := by
  revert nib x; decide

theorem formatM12_eq (nib : Nibble) (x : BitVec 12) : formatM12 nib x = packFields .w12 nib x.toNat := by
  apply packBytes_injective
  · rw [packFields_length]; simp [formatM12, Mode.instrBytes, Mode.width]
  · have hx := x.isLt
    rw [packFields_number]
    simp only [formatM12, packBytes, List.foldl, BitVec.toNat_append, BitVec.extractLsb'_toNat, Mode.width]
    rw [← Nat.shiftLeft_add_eq_or_of_lt (by omega), Nat.shiftLeft_eq, Nat.shiftRight_eq_div_pow]
    simp
    omega

theorem formatM20_eq (nib : Nibble) (x : BitVec 20) : formatM20 nib x = packFields .w20 nib x.toNat := by
  apply packBytes_injective
  · rw [packFields_length]; simp [formatM20, Mode.instrBytes, Mode.width]
  · have hx := x.isLt
    rw [packFields_number]
    simp only [formatM20, packBytes, List.foldl, BitVec.toNat_append, BitVec.extractLsb'_toNat, Mode.width]
    rw [← Nat.shiftLeft_add_eq_or_of_lt (by omega), Nat.shiftLeft_eq, Nat.shiftRight_eq_div_pow, Nat.shiftRight_eq_div_pow]
    simp
    omega

/-- Packing depends on the operand's low `W` bits only (R103). -/
theorem packFields_mod (W : Mode) (nib : Nibble) (x : Nat) : packFields W nib (x % 2 ^ W.width) = packFields W nib x := by
  simp [packFields]

/-! ### The table of instructions -/

/-- A property of all nibbles is one of the sixteen values. -/
theorem nibble_induction {P : Nibble → Prop} (h : ∀ k < 16, P (BitVec.ofNat 4 k)) (n : Nibble) : P n := by
  simpa using h n.toNat n.isLt

theorem instrOf_mode (W : Mode) (nib : Nibble) (x : Nat) : (instrOf W nib x).mode = W := by
  cases W <;> simp only [instrOf, instrOfM4, instrOfM12, instrOfM20] <;> split <;> rfl

theorem instrOf_nibble (W : Mode) (nib : Nibble) (x : Nat) : (instrOf W nib x).nibble = nib := by
  induction nib using nibble_induction with
  | h k hk => cases W <;> interval_cases k <;> rfl

theorem instrOf_operand (W : Mode) (nib : Nibble) (x : Nat) : (instrOf W nib x).operand = x % 2 ^ W.width := by
  cases W <;> simp only [instrOf, instrOfM4, instrOfM12, instrOfM20] <;> split <;> exact BitVec.toNat_ofNat ..

theorem decodeFetched_mode (W : Mode) (bs : List Byte) : (decodeFetched W bs).mode = W := instrOf_mode ..

theorem decodeFetched_nibble (W : Mode) (bs : List Byte) : (decodeFetched W bs).nibble = (codecDecode W bs).nib :=
  instrOf_nibble ..

theorem decodeFetched_operand (W : Mode) (bs : List Byte) : (decodeFetched W bs).operand = (codecDecode W bs).x :=
  (instrOf_operand ..).trans (Nat.mod_eq_of_lt (codecDecode_x_lt ..))

/-- The engine executes the opcode DECODE answers (R109). -/
theorem decodeFetched_op (W : Mode) (bs : List Byte) : (decodeFetched W bs).op = (codecDecode W bs).op := by
  rw [Instr.op, decodeFetched_nibble]; rfl

end Sys2Proof
end

