-- ==== Sys2Proof/Laws/Memory.lean ====
section
/-! SUPPORT. The laws of memory: read after write, and that every operation keeps the canonical form and the image's bounds. -/

namespace Sys2Proof.Machine

variable {m : Memory} {k j : Nat} {v : Byte} {W : Mode}

@[simp] theorem Memory.read_nil : Memory.read [] k = Config.unlistedByte := rfl

theorem Memory.read_cons (c : Host.Cell) : Memory.read (c :: m) k = if c.1 = k then c.2 else Memory.read m k := rfl

theorem Memory.read_insertCell (h : ∀ c ∈ m, c.1 ≠ k) :
    (Memory.insertCell m k v).read j = if j = k then v else m.read j := by
  induction m with
  | nil => simp [Memory.insertCell, Memory.read_cons, eq_comm]
  | cons c m ih =>
    have hc : c.1 ≠ k := h c (by simp)
    have ih := ih fun d hd => h d (by simp [hd])
    unfold Memory.insertCell
    split
    · simp only [Memory.read_cons, eq_comm]
    · simp only [Memory.read_cons, ih]
      split
      · subst j; split <;> simp_all
      · rfl

theorem Memory.read_filter_ne :
    Memory.read (m.filter fun c => c.1 != k) j = if j = k then Config.unlistedByte else m.read j := by
  induction m with
  | nil => simp
  | cons c m ih =>
    by_cases hc : c.1 = k
    · simp only [List.filter_cons, hc, bne_self_eq_false, Bool.false_eq_true, if_false, ih, Memory.read_cons]
      split <;> simp_all [eq_comm]
    · simp only [List.filter_cons, bne_iff_ne, ne_eq, hc, not_false_eq_true, if_true, Memory.read_cons, ih]
      split
      · subst j; split <;> simp_all
      · rfl

/-- A read after a write gives the value written at that address and the old value elsewhere (R46, R51). -/
@[simp] theorem Memory.read_write (m : Memory) (k j : Nat) (v : Byte) :
    (m.write k v).read j = if j = k then v else m.read j := by
  unfold Memory.write
  split
  · rename_i h; rw [Memory.read_filter_ne, h]
  · rw [Memory.read_insertCell (by simp), Memory.read_filter_ne]
    split <;> simp_all

theorem Memory.mem_insertCell {c : Host.Cell} (h : c ∈ Memory.insertCell m k v) : c = (k, v) ∨ c ∈ m := by
  induction m with
  | nil => simpa [Memory.insertCell] using h
  | cons d m ih =>
    unfold Memory.insertCell at h
    split at h
    · simpa using h
    · rcases List.mem_cons.1 h with h | h
      · simp [h]
      · rcases ih h with h | h <;> simp [h]

/-- Every entry of a written memory is the one written or an old one. -/
theorem Memory.mem_write {c : Host.Cell} (h : c ∈ m.write k v) : c = (k, v) ∨ c ∈ m := by
  unfold Memory.write at h
  split at h
  · exact .inr (List.mem_of_mem_filter h)
  · exact (Memory.mem_insertCell h).imp_right List.mem_of_mem_filter

theorem Memory.wf_cons {c : Host.Cell} :
    Memory.wf (c :: m) = true ↔ c.2 ≠ Config.unlistedByte ∧ (∀ d ∈ m, c.1 < d.1) ∧ m.wf = true := by
  simp [Memory.wf, and_assoc]

theorem Memory.wf_filter (p : Host.Cell → Bool) (h : m.wf = true) : Memory.wf (m.filter p) = true := by
  induction m with
  | nil => rfl
  | cons c m ih =>
    obtain ⟨hv, hlt, hm⟩ := Memory.wf_cons.1 h
    rw [List.filter_cons]
    split
    · exact Memory.wf_cons.2 ⟨hv, fun d hd => hlt d (List.mem_of_mem_filter hd), ih hm⟩
    · exact ih hm

theorem Memory.wf_insertCell (h : m.wf = true) (hk : ∀ c ∈ m, c.1 ≠ k) (hv : v ≠ Config.unlistedByte) :
    (Memory.insertCell m k v).wf = true := by
  induction m with
  | nil => simpa [Memory.insertCell, Memory.wf] using hv
  | cons c m ih =>
    obtain ⟨hc, hlt, hm⟩ := Memory.wf_cons.1 h
    unfold Memory.insertCell
    split
    · rename_i hkc
      refine Memory.wf_cons.2 ⟨hv, fun d hd => ?_, h⟩
      rcases List.mem_cons.1 hd with rfl | hd
      · exact hkc
      · exact hkc.trans (hlt d hd)
    · rename_i hkc
      have hne := hk c (by simp)
      refine Memory.wf_cons.2 ⟨hc, fun d hd => ?_, ih hm fun d hd => hk d (by simp [hd])⟩
      rcases Memory.mem_insertCell hd with rfl | hd
      · show c.1 < k; omega
      · exact hlt d hd

/-- A write keeps the canonical form. -/
theorem Memory.wf_write (h : m.wf = true) : (m.write k v).wf = true := by
  unfold Memory.write
  split
  · exact Memory.wf_filter _ h
  · exact Memory.wf_insertCell (Memory.wf_filter _ h) (by simp) ‹_›

/-- A write inside the image keeps every entry inside it. -/
theorem Memory.inside_write (h : m.inside W) (hk : k < W.memSize) : (m.write k v).inside W := fun c hc =>
  (Memory.mem_write hc).elim (fun e => e ▸ hk) (h c)

/-- Copying a payload: byte `i` of it lands at `k + i`, every other address keeps its byte (R188). -/
theorem Memory.read_writeBytes (p : List Byte) (m : Memory) (k j : Nat) :
    (m.writeBytes k p).read j = if k ≤ j ∧ j < k + p.length then p.getD (j - k) 0x00#8 else m.read j := by
  induction p generalizing m k with
  | nil => simp [Memory.writeBytes]
  | cons v p ih =>
    rw [Memory.writeBytes, ih, Memory.read_write]
    rcases Nat.lt_trichotomy j k with h | h | h
    · rw [if_neg (by omega), if_neg (by omega), if_neg (by omega)]
    · subst h; simp
    · obtain ⟨d, rfl⟩ := Nat.exists_eq_add_of_lt h
      have e1 : k + d + 1 - (k + 1) = d := by omega
      have e2 : k + d + 1 - k = d + 1 := by omega
      by_cases hd : d < p.length
      · rw [if_pos (by omega), if_pos (by simp; omega), e1, e2]; simp
      · rw [if_neg (by omega), if_neg (by omega), if_neg (by simp; omega)]

theorem Memory.wf_writeBytes (p : List Byte) (k : Nat) (h : m.wf = true) : (m.writeBytes k p).wf = true := by
  induction p generalizing m k with
  | nil => exact h
  | cons v p ih => exact ih _ (Memory.wf_write h)

theorem Memory.inside_writeBytes (p : List Byte) (k : Nat) (h : m.inside W) (hk : k + p.length ≤ W.memSize) :
    (m.writeBytes k p).inside W := by
  induction p generalizing m k with
  | nil => exact h
  | cons v p ih =>
    rw [List.length_cons] at hk
    exact ih _ (Memory.inside_write h (by omega)) (by omega)

end Sys2Proof.Machine
end

