-- ==== Sys2Proof/Laws/State.lean ====
section
/-! SUPPORT. One lemma per field per update of State, each by rfl, so that no later proof unfolds a record update. -/

namespace Sys2Proof.Machine

variable (s : State) (v : Byte) (x : Nat) (W : Mode) (m : Memory)

@[simp] theorem State.setA_mode : (s.setA v).mode = s.mode := rfl
@[simp] theorem State.setA_ip : (s.setA v).ip = s.ip := rfl
@[simp] theorem State.setA_a : (s.setA v).a = v := rfl
@[simp] theorem State.setA_mem : (s.setA v).mem = s.mem := rfl
@[simp] theorem State.setA_halted : (s.setA v).halted = s.halted := rfl
@[simp] theorem State.setA_out : (s.setA v).out = s.out := rfl

@[simp] theorem State.writeOperand_mode : (s.writeOperand x v).mode = s.mode := rfl
@[simp] theorem State.writeOperand_ip : (s.writeOperand x v).ip = s.ip := rfl
@[simp] theorem State.writeOperand_a : (s.writeOperand x v).a = s.a := rfl
@[simp] theorem State.writeOperand_mem : (s.writeOperand x v).mem = s.mem.write (effectiveAddress s.mode x) v := rfl
@[simp] theorem State.writeOperand_halted : (s.writeOperand x v).halted = s.halted := rfl
@[simp] theorem State.writeOperand_out : (s.writeOperand x v).out = s.out := rfl

@[simp] theorem State.setIp_mode : (s.setIp x).mode = s.mode := rfl
@[simp] theorem State.setIp_ip : (s.setIp x).ip = BitVec.ofNat 20 (effectiveAddress s.mode x) := rfl
@[simp] theorem State.setIp_a : (s.setIp x).a = s.a := rfl
@[simp] theorem State.setIp_mem : (s.setIp x).mem = s.mem := rfl
@[simp] theorem State.setIp_halted : (s.setIp x).halted = s.halted := rfl
@[simp] theorem State.setIp_out : (s.setIp x).out = s.out := rfl

@[simp] theorem State.emit_mode : s.emit.mode = s.mode := rfl
@[simp] theorem State.emit_ip : s.emit.ip = s.ip := rfl
@[simp] theorem State.emit_a : s.emit.a = s.a := rfl
@[simp] theorem State.emit_mem : s.emit.mem = s.mem := rfl
@[simp] theorem State.emit_halted : s.emit.halted = s.halted := rfl
@[simp] theorem State.emit_out : s.emit.out = s.out ++ [s.a] := rfl

@[simp] theorem State.halt_mode : s.halt.mode = s.mode := rfl
@[simp] theorem State.halt_ip : s.halt.ip = s.ip := rfl
@[simp] theorem State.halt_a : s.halt.a = s.a := rfl
@[simp] theorem State.halt_mem : s.halt.mem = s.mem := rfl
@[simp] theorem State.halt_halted : s.halt.halted = true := rfl
@[simp] theorem State.halt_out : s.halt.out = s.out := rfl

@[simp] theorem State.advance_mode : s.advance.mode = s.mode := rfl
@[simp] theorem State.advance_ip : s.advance.ip = BitVec.ofNat 20 ((s.ip.toNat + s.mode.instrBytes) % s.mode.memSize) := rfl
@[simp] theorem State.advance_a : s.advance.a = s.a := rfl
@[simp] theorem State.advance_mem : s.advance.mem = s.mem := rfl
@[simp] theorem State.advance_halted : s.advance.halted = s.halted := rfl
@[simp] theorem State.advance_out : s.advance.out = s.out := rfl

@[simp] theorem State.start_mode : (State.start W m).mode = W := rfl
@[simp] theorem State.start_ip : (State.start W m).ip = 0#20 := rfl
@[simp] theorem State.start_a : (State.start W m).a = 0x00#8 := rfl
@[simp] theorem State.start_mem : (State.start W m).mem = m := rfl
@[simp] theorem State.start_halted : (State.start W m).halted = false := rfl
@[simp] theorem State.start_out : (State.start W m).out = [] := rfl

end Sys2Proof.Machine
end

