-- ==== Sys2Proof/Laws/Exec.lean ====
section
/-! SUPPORT. What an instruction does, said once for all 48 rows by opcode and operand (R121 phase 4, R125). -/

namespace Sys2Proof.Machine

/-- The effect of an opcode on the advanced state. -/
def effect (op : Op) (x : Nat) (s : State) : State :=
  match op with
  | .nop => s
  | .lda => s.setA (s.readOperand x)
  | .add => s.setA (aluAdd s.a (s.readOperand x))
  | .sub => s.setA (aluSub s.a (s.readOperand x))
  | .sta => s.writeOperand x s.a
  | .ldi => s.setA (immediate x)
  | .jmp => s.setIp x
  | .out => s.emit
  | .hlt => s.halt

/-- Every instruction answers the next state that its opcode's effect gives for its operand. -/
theorem exec_eq_effect (i : Instr) (s : State) : exec i s = .next (effect i.op i.operand s) := by
  cases i <;> rfl

@[simp] theorem effect_mode (op : Op) (x : Nat) (s : State) : (effect op x s).mode = s.mode := by cases op <;> rfl

theorem effect_ip (op : Op) (x : Nat) (s : State) :
    (effect op x s).ip = if op = .jmp then BitVec.ofNat 20 (effectiveAddress s.mode x) else s.ip := by cases op <;> rfl

theorem effect_mem (op : Op) (x : Nat) (s : State) :
    (effect op x s).mem = if op = .sta then s.mem.write (effectiveAddress s.mode x) s.a else s.mem := by cases op <;> rfl

theorem effect_out (op : Op) (x : Nat) (s : State) :
    (effect op x s).out = if op = .out then s.out ++ [s.a] else s.out := by cases op <;> rfl

theorem effect_halted (op : Op) (x : Nat) (s : State) :
    (effect op x s).halted = if op = .hlt then true else s.halted := by cases op <;> rfl

/-- Only LDA, ADD, SUB and LDI write the accumulator (R27). -/
theorem effect_a_of_not_writer {op : Op} (x : Nat) (s : State) (h : op ∉ [Op.lda, Op.add, Op.sub, Op.ldi]) :
    (effect op x s).a = s.a := by
  cases op <;> first | rfl | exact absurd h (by decide)

theorem toNat_aluAdd (a m : Byte) : (aluAdd a m).toNat = (a.toNat + m.toNat) % 256 := BitVec.toNat_add ..

theorem toNat_aluSub (a m : Byte) : (aluSub a m).toNat = (a.toNat + 256 - m.toNat) % 256 := by
  have := m.isLt
  rw [aluSub, BitVec.toNat_sub]
  congr 1
  omega

end Sys2Proof.Machine
end

