-- ==== Sys2Proof/Laws/Loader.lean ====
section
/-! SUPPORT. What the loader does with the bytes the writer makes (R186, R188, R189), and the lengths of slots and payloads. -/

namespace Sys2Proof.Machine

theorem bigEndian32_length (n : Nat) : (bigEndian32 n).length = 4 := unpackBytes_length ..

theorem packBytes_bigEndian32 {n : Nat} (h : n < 2 ^ 32) : packBytes (bigEndian32 n) = n := by
  rw [bigEndian32, packBytes_unpackBytes]
  exact Nat.mod_eq_of_lt h

theorem recordBytes_length (r : Record) : (recordBytes r).length = 8 + r.payload.length := by
  simp [recordBytes, bigEndian32_length]
  omega

/-- One round of the loader on a written record: the range check, then the copy (R188, R189). -/
theorem loadRecords_recordBytes (W : Mode) (fuel : Nat) (m : Memory) (r : Record) (tail : List Byte)
    (haddr : r.addr < 2 ^ 32) (hlen : r.payload.length < 2 ^ 32) :
    loadRecords W (fuel + 1) m (recordBytes r ++ tail) =
      if r.addr + r.payload.length > W.memSize then .error .memoryRangeError
      else loadRecords W fuel (m.writeBytes r.addr r.payload) tail := by
  have h4a := bigEndian32_length r.addr
  have h4b := bigEndian32_length r.payload.length
  have e1 : (recordBytes r ++ tail).take 4 = bigEndian32 r.addr := by
    rw [recordBytes, List.append_assoc, List.append_assoc, List.take_append_of_le_length (by omega),
      List.take_of_length_le (by omega)]
  have e2 : ((recordBytes r ++ tail).drop 4).take 4 = bigEndian32 r.payload.length := by
    rw [recordBytes, List.append_assoc, List.append_assoc, List.drop_append_of_le_length (by omega),
      List.drop_of_length_le (by omega), List.nil_append, List.take_append_of_le_length (by omega),
      List.take_of_length_le (by omega)]
  have e3 : (recordBytes r ++ tail).drop 8 = r.payload ++ tail := by
    rw [recordBytes, List.append_assoc, List.drop_append_of_le_length (by simp; omega),
      List.drop_of_length_le (by simp; omega), List.nil_append]
  have h8 : ¬ (recordBytes r ++ tail).length < 8 := by rw [List.length_append, recordBytes_length]; omega
  generalize recordBytes r ++ tail = stream at *
  cases stream with
  | nil => simp at h8
  | cons b bs =>
    rw [loadRecords]
    simp only [e1, e2, e3, packBytes_bigEndian32 haddr, packBytes_bigEndian32 hlen, if_neg h8]
    split
    · rfl
    · rw [if_neg (by simp)]; simp

/-- The loader on a written container: the header is accepted and the records are read over a zeroed image (R188). -/
theorem load_writeContainer_append (W : Mode) (rs : List Record) (tail : List Byte) :
    load (writeContainer W rs ++ tail) =
      match loadRecords W (rs.flatMap recordBytes ++ tail).length [] (rs.flatMap recordBytes ++ tail) with
      | .error e => .error e
      | .ok m => .ok (W, m) := by
  simp only [writeContainer, headerBytes, List.cons_append, List.nil_append, load]
  rw [if_neg (by simp), show (BitVec.ofNat 8 W.width : Byte).toNat = W.width by cases W <;> rfl, Mode.ofNumber_width]
  all_goals rfl

/-- Every line takes one slot of `B` bytes (R85). -/
theorem slot_length (W : Mode) (l : Line) : (slot W l).length = W.instrBytes := by
  cases l with
  | instruction op x => exact packFields_length ..
  | raw v =>
    have := W.instrBytes_pos
    simp [slot, rawSlot]
    omega

/-- A payload of `n` lines has `n * B` bytes (R111). -/
theorem payload_length (W : Mode) (lines : List Line) : (payload W lines).length = lines.length * W.instrBytes := by
  induction lines with
  | nil => simp [payload]
  | cons l ls ih =>
    simp only [payload, List.flatMap_cons, List.length_append, List.length_cons, slot_length] at *
    rw [ih, Nat.succ_mul, Nat.add_comm]

/-- A text without delimiters is passed over whole: it joins the text since the last delimiter (R82). -/
theorem tokenize_append (text : List Char) (h : ∀ c ∈ text, delimiterOf c = none) (before rest : List Char) :
    tokenize before (text ++ rest) = tokenize (text.reverse ++ before) rest := by
  induction text generalizing before with
  | nil => rfl
  | cons c cs ih =>
    simp only [List.mem_cons, forall_eq_or_imp] at h
    simp [tokenize, h.1, ih h.2]

/-- A text without delimiters up to a delimiter gives its segments, then the delimiter (R82). -/
theorem tokenize_text (text : List Char) (h : ∀ c ∈ text, delimiterOf c = none) {c : Char} {d : Token}
    (hc : delimiterOf c = some d) (rest : List Char) :
    tokenize [] (text ++ c :: rest) = (segments text).map .word ++ d :: tokenize [] rest := by
  simp [tokenize_append text h, tokenize, hc]

/-- White space alone has no segment (R82). -/
theorem segments_blank (blank : List Char) (h : ∀ c ∈ blank, c.isWhitespace = true) : segments blank = [] := by
  induction blank with
  | nil => simp [segments]
  | cons c cs ih =>
    simp only [List.mem_cons, forall_eq_or_imp] at h
    simpa [segments, List.splitOnP_cons_eq_if_modifyHead, h.1] using ih h.2

/-- White space is no delimiter. -/
theorem delimiterOf_blank {c : Char} (h : c.isWhitespace = true) : delimiterOf c = none := by
  unfold delimiterOf
  rw [if_neg, if_neg, if_neg] <;> rintro rfl <;> exact absurd h (by decide)

/-- The words of a statement are collected as its segments (R82). -/
theorem readLines_words (ws segments : List (List Char)) (more : Bool) (ts : List Token) :
    readLines segments more (ws.map Token.word ++ ts) = readLines (ws.reverse ++ segments) more ts := by
  induction ws generalizing segments with
  | nil => rfl
  | cons w ws ih => simp [readLines, ih]

/-- Reading a string of digits of one base gives its value (R81). -/
theorem readDigits_map {α : Type} (base : Nat) (digit : α → Char) (value : α → Nat)
    (h : ∀ d, digitValue (digit d) = some (value d) ∧ value d < base) (ds : List α) (acc : Nat) :
    readDigits base acc (ds.map digit) = some (ds.foldl (fun v d => v * base + value d) acc) := by
  induction ds generalizing acc with
  | nil => rfl
  | cons d ds ih =>
    rw [List.map_cons, readDigits]
    simp only [(h d).1, if_pos (h d).2, ih]
    rfl

end Sys2Proof.Machine
end

