-- ==== Sys2Proof/Laws/PerInstr.lean ====
section
/-! SUPPORT. The per-instruction law `TableInverse`: mode, nibble and operand of an instruction select its own row of the
opcode table (R66, R67), so the encoder drops nothing the decoder needs. -/

namespace Sys2Proof.Laws

/-- The opcode table, read at the fields the encoder writes, gives the instruction back. -/
def TableInverse.Statement (i : Instr) : Prop := instrOf i.mode i.nibble i.operand = i

/-- The table of format M4 read with an operand given as a number. -/
theorem instrOf_w4 (nib : Nibble) (x : BitVec 4) : instrOf .w4 nib x.toNat = instrOfM4 nib x := by
  simp [instrOf]

/-- The table of format M12 read with an operand given as a number. -/
theorem instrOf_w12 (nib : Nibble) (x : BitVec 12) : instrOf .w12 nib x.toNat = instrOfM12 nib x := by
  simp [instrOf]

/-- The table of format M20 read with an operand given as a number. -/
theorem instrOf_w20 (nib : Nibble) (x : BitVec 20) : instrOf .w20 nib x.toNat = instrOfM20 nib x := by
  simp [instrOf]

theorem TableInverse.nopM4 (x : BitVec 4) : TableInverse.Statement (.nopM4 x) := instrOf_w4 _ x
theorem TableInverse.ldaM4 (x : BitVec 4) : TableInverse.Statement (.ldaM4 x) := instrOf_w4 _ x
theorem TableInverse.addM4 (x : BitVec 4) : TableInverse.Statement (.addM4 x) := instrOf_w4 _ x
theorem TableInverse.subM4 (x : BitVec 4) : TableInverse.Statement (.subM4 x) := instrOf_w4 _ x
theorem TableInverse.staM4 (x : BitVec 4) : TableInverse.Statement (.staM4 x) := instrOf_w4 _ x
theorem TableInverse.ldiM4 (x : BitVec 4) : TableInverse.Statement (.ldiM4 x) := instrOf_w4 _ x
theorem TableInverse.jmpM4 (x : BitVec 4) : TableInverse.Statement (.jmpM4 x) := instrOf_w4 _ x
theorem TableInverse.unmapped7M4 (x : BitVec 4) : TableInverse.Statement (.unmapped7M4 x) := instrOf_w4 _ x
theorem TableInverse.unmapped8M4 (x : BitVec 4) : TableInverse.Statement (.unmapped8M4 x) := instrOf_w4 _ x
theorem TableInverse.unmapped9M4 (x : BitVec 4) : TableInverse.Statement (.unmapped9M4 x) := instrOf_w4 _ x
theorem TableInverse.unmappedAM4 (x : BitVec 4) : TableInverse.Statement (.unmappedAM4 x) := instrOf_w4 _ x
theorem TableInverse.unmappedBM4 (x : BitVec 4) : TableInverse.Statement (.unmappedBM4 x) := instrOf_w4 _ x
theorem TableInverse.unmappedCM4 (x : BitVec 4) : TableInverse.Statement (.unmappedCM4 x) := instrOf_w4 _ x
theorem TableInverse.unmappedDM4 (x : BitVec 4) : TableInverse.Statement (.unmappedDM4 x) := instrOf_w4 _ x
theorem TableInverse.outM4 (x : BitVec 4) : TableInverse.Statement (.outM4 x) := instrOf_w4 _ x
theorem TableInverse.hltM4 (x : BitVec 4) : TableInverse.Statement (.hltM4 x) := instrOf_w4 _ x

theorem TableInverse.nopM12 (x : BitVec 12) : TableInverse.Statement (.nopM12 x) := instrOf_w12 _ x
theorem TableInverse.ldaM12 (x : BitVec 12) : TableInverse.Statement (.ldaM12 x) := instrOf_w12 _ x
theorem TableInverse.addM12 (x : BitVec 12) : TableInverse.Statement (.addM12 x) := instrOf_w12 _ x
theorem TableInverse.subM12 (x : BitVec 12) : TableInverse.Statement (.subM12 x) := instrOf_w12 _ x
theorem TableInverse.staM12 (x : BitVec 12) : TableInverse.Statement (.staM12 x) := instrOf_w12 _ x
theorem TableInverse.ldiM12 (x : BitVec 12) : TableInverse.Statement (.ldiM12 x) := instrOf_w12 _ x
theorem TableInverse.jmpM12 (x : BitVec 12) : TableInverse.Statement (.jmpM12 x) := instrOf_w12 _ x
theorem TableInverse.unmapped7M12 (x : BitVec 12) : TableInverse.Statement (.unmapped7M12 x) := instrOf_w12 _ x
theorem TableInverse.unmapped8M12 (x : BitVec 12) : TableInverse.Statement (.unmapped8M12 x) := instrOf_w12 _ x
theorem TableInverse.unmapped9M12 (x : BitVec 12) : TableInverse.Statement (.unmapped9M12 x) := instrOf_w12 _ x
theorem TableInverse.unmappedAM12 (x : BitVec 12) : TableInverse.Statement (.unmappedAM12 x) := instrOf_w12 _ x
theorem TableInverse.unmappedBM12 (x : BitVec 12) : TableInverse.Statement (.unmappedBM12 x) := instrOf_w12 _ x
theorem TableInverse.unmappedCM12 (x : BitVec 12) : TableInverse.Statement (.unmappedCM12 x) := instrOf_w12 _ x
theorem TableInverse.unmappedDM12 (x : BitVec 12) : TableInverse.Statement (.unmappedDM12 x) := instrOf_w12 _ x
theorem TableInverse.outM12 (x : BitVec 12) : TableInverse.Statement (.outM12 x) := instrOf_w12 _ x
theorem TableInverse.hltM12 (x : BitVec 12) : TableInverse.Statement (.hltM12 x) := instrOf_w12 _ x

theorem TableInverse.nopM20 (x : BitVec 20) : TableInverse.Statement (.nopM20 x) := instrOf_w20 _ x
theorem TableInverse.ldaM20 (x : BitVec 20) : TableInverse.Statement (.ldaM20 x) := instrOf_w20 _ x
theorem TableInverse.addM20 (x : BitVec 20) : TableInverse.Statement (.addM20 x) := instrOf_w20 _ x
theorem TableInverse.subM20 (x : BitVec 20) : TableInverse.Statement (.subM20 x) := instrOf_w20 _ x
theorem TableInverse.staM20 (x : BitVec 20) : TableInverse.Statement (.staM20 x) := instrOf_w20 _ x
theorem TableInverse.ldiM20 (x : BitVec 20) : TableInverse.Statement (.ldiM20 x) := instrOf_w20 _ x
theorem TableInverse.jmpM20 (x : BitVec 20) : TableInverse.Statement (.jmpM20 x) := instrOf_w20 _ x
theorem TableInverse.unmapped7M20 (x : BitVec 20) : TableInverse.Statement (.unmapped7M20 x) := instrOf_w20 _ x
theorem TableInverse.unmapped8M20 (x : BitVec 20) : TableInverse.Statement (.unmapped8M20 x) := instrOf_w20 _ x
theorem TableInverse.unmapped9M20 (x : BitVec 20) : TableInverse.Statement (.unmapped9M20 x) := instrOf_w20 _ x
theorem TableInverse.unmappedAM20 (x : BitVec 20) : TableInverse.Statement (.unmappedAM20 x) := instrOf_w20 _ x
theorem TableInverse.unmappedBM20 (x : BitVec 20) : TableInverse.Statement (.unmappedBM20 x) := instrOf_w20 _ x
theorem TableInverse.unmappedCM20 (x : BitVec 20) : TableInverse.Statement (.unmappedCM20 x) := instrOf_w20 _ x
theorem TableInverse.unmappedDM20 (x : BitVec 20) : TableInverse.Statement (.unmappedDM20 x) := instrOf_w20 _ x
theorem TableInverse.outM20 (x : BitVec 20) : TableInverse.Statement (.outM20 x) := instrOf_w20 _ x
theorem TableInverse.hltM20 (x : BitVec 20) : TableInverse.Statement (.hltM20 x) := instrOf_w20 _ x

end Sys2Proof.Laws
end

