-- ==== Sys2Proof/Laws/Step.lean ====
section
/-! SUPPORT. What a step can do, said once (R121, R127), and the laws of a bounded run. -/

namespace Sys2Proof.Machine

/-- The one inversion lemma of the step: halted and stopped, or running and the effect of the fetched instruction on the
advanced state. -/
theorem step_cases (s : State) :
    (s.halted = true ∧ step s = .fault .halted) ∨
    (s.halted = false ∧ step s = .next (effect s.fetchInstr.op s.fetchInstr.operand s.advance)) := by
  unfold step haltedStep
  cases h : s.halted <;> simp [exec_eq_effect]

theorem step_of_running {s : State} (h : s.halted = false) :
    step s = .next (effect s.fetchInstr.op s.fetchInstr.operand s.advance) := by
  rcases step_cases s with ⟨h', -⟩ | ⟨-, h'⟩
  · simp [h] at h'
  · exact h'

theorem step_eq_next {s t : State} (h : step s = .next t) :
    s.halted = false ∧ t = effect s.fetchInstr.op s.fetchInstr.operand s.advance := by
  rcases step_cases s with ⟨-, h'⟩ | ⟨hr, h'⟩ <;> rw [h'] at h <;> cases h
  exact ⟨hr, rfl⟩

theorem fetch_length (s : State) : s.fetch.length = s.mode.instrBytes := by simp [State.fetch]

/-- A run goes on from the state a step answers (R128). -/
theorem run_succ_of_next {s t : State} (h : step s = .next t) (n : Nat) : run (n + 1) s = run n t := by
  simp [run, h]

/-- The instruction a step runs is in the machine's own format. -/
theorem fetchInstr_mode (s : State) : s.fetchInstr.mode = s.mode := decodeFetched_mode ..

/-- An operand of the fetched instruction is an address of the image (R47). -/
theorem fetchInstr_operand_lt (s : State) : s.fetchInstr.operand < s.mode.memSize := by
  have := s.fetchInstr.operand_lt
  rwa [fetchInstr_mode] at this

end Sys2Proof.Machine
end

