-- ==== Sys2Proof/Tests/Slice0.lean ====
section
/-! SUPPORT. The model's own tests: words written out from the spec's encodings, single steps, loader and assembler vectors
(95_test_vectors.md, each named in its comment), the smoke test of WellFormed, and a witness for every statement's
hypotheses. -/

namespace Sys2Proof.Tests

open Sys2Proof.Machine

/-- The next state of an outcome, if it is one. -/
def nextState (o : Host.Outcome State Fault Refusal) : Option State :=
  match o with
  | .next s => some s
  | .fault _ => none
  | .refused _ => none

/-- A running machine in mode `W` with nothing emitted. -/
def running (W : Mode) (ip : Addr) (a : Byte) (mem : Memory) : State :=
  { mode := W, ip := ip, a := a, mem := mem, halted := false, out := [] }

/-- `IP` and `A` after one step. -/
def ipA (s : State) : Option (Addr × Byte) := (nextState (step s)).map fun t => (t.ip, t.a)

/-! ### WellFormed: the ill-formed terms each check refuses (R60, R71, R189) -/

theorem test_wellFormed_accepts_own_format : Instr.wellFormed .w12 (.ldaM12 0xFFF#12) = true := by decide

theorem test_wellFormed_refuses_other_format :
    Instr.wellFormed .w4 (.ldaM12 0x00A#12) = false ∧ Instr.wellFormed .w20 (.unmapped7M4 0x0#4) = false := by decide

theorem test_fits_refuses_record_beyond_memory :
    Record.fits .w4 { addr := 15, payload := [0x3C#8, 0x78#8] } = false ∧
    Record.fits .w4 { addr := 14, payload := [0x3C#8, 0x78#8] } = true := by decide

/-! ### Decoding: every constructor by a word written out from R61 and R66 (operand bits chosen by hand) -/

/-- Format M4: the 16 nibbles, each with an operand whose bytes differ. -/
theorem test_decode_M4 :
    [[0b00001010#8],
      [0b00011010#8],
      [0b00101010#8],
      [0b00111010#8],
      [0b01001010#8],
      [0b01011010#8],
      [0b01101010#8],
      [0b01111010#8],
      [0b10001010#8],
      [0b10011010#8],
      [0b10101010#8],
      [0b10111010#8],
      [0b11001010#8],
      [0b11011010#8],
      [0b11101010#8],
      [0b11111010#8]].map (decode .w4) =
    [(.nopM4 0xA#4, []),
      (.ldaM4 0xA#4, []),
      (.addM4 0xA#4, []),
      (.subM4 0xA#4, []),
      (.staM4 0xA#4, []),
      (.ldiM4 0xA#4, []),
      (.jmpM4 0xA#4, []),
      (.unmapped7M4 0xA#4, []),
      (.unmapped8M4 0xA#4, []),
      (.unmapped9M4 0xA#4, []),
      (.unmappedAM4 0xA#4, []),
      (.unmappedBM4 0xA#4, []),
      (.unmappedCM4 0xA#4, []),
      (.unmappedDM4 0xA#4, []),
      (.outM4 0xA#4, []),
      (.hltM4 0xA#4, [])].map Except.ok := by
  decide

/-- Format M12: the 16 nibbles, each with an operand whose bytes differ. -/
theorem test_decode_M12 :
    [[0b00001010#8, 0b10111100#8],
      [0b00011010#8, 0b10111100#8],
      [0b00101010#8, 0b10111100#8],
      [0b00111010#8, 0b10111100#8],
      [0b01001010#8, 0b10111100#8],
      [0b01011010#8, 0b10111100#8],
      [0b01101010#8, 0b10111100#8],
      [0b01111010#8, 0b10111100#8],
      [0b10001010#8, 0b10111100#8],
      [0b10011010#8, 0b10111100#8],
      [0b10101010#8, 0b10111100#8],
      [0b10111010#8, 0b10111100#8],
      [0b11001010#8, 0b10111100#8],
      [0b11011010#8, 0b10111100#8],
      [0b11101010#8, 0b10111100#8],
      [0b11111010#8, 0b10111100#8]].map (decode .w12) =
    [(.nopM12 0xABC#12, []),
      (.ldaM12 0xABC#12, []),
      (.addM12 0xABC#12, []),
      (.subM12 0xABC#12, []),
      (.staM12 0xABC#12, []),
      (.ldiM12 0xABC#12, []),
      (.jmpM12 0xABC#12, []),
      (.unmapped7M12 0xABC#12, []),
      (.unmapped8M12 0xABC#12, []),
      (.unmapped9M12 0xABC#12, []),
      (.unmappedAM12 0xABC#12, []),
      (.unmappedBM12 0xABC#12, []),
      (.unmappedCM12 0xABC#12, []),
      (.unmappedDM12 0xABC#12, []),
      (.outM12 0xABC#12, []),
      (.hltM12 0xABC#12, [])].map Except.ok := by
  decide

/-- Format M20: the 16 nibbles, each with an operand whose bytes differ. -/
theorem test_decode_M20 :
    [[0b00000001#8, 0b00100011#8, 0b01000101#8],
      [0b00010001#8, 0b00100011#8, 0b01000101#8],
      [0b00100001#8, 0b00100011#8, 0b01000101#8],
      [0b00110001#8, 0b00100011#8, 0b01000101#8],
      [0b01000001#8, 0b00100011#8, 0b01000101#8],
      [0b01010001#8, 0b00100011#8, 0b01000101#8],
      [0b01100001#8, 0b00100011#8, 0b01000101#8],
      [0b01110001#8, 0b00100011#8, 0b01000101#8],
      [0b10000001#8, 0b00100011#8, 0b01000101#8],
      [0b10010001#8, 0b00100011#8, 0b01000101#8],
      [0b10100001#8, 0b00100011#8, 0b01000101#8],
      [0b10110001#8, 0b00100011#8, 0b01000101#8],
      [0b11000001#8, 0b00100011#8, 0b01000101#8],
      [0b11010001#8, 0b00100011#8, 0b01000101#8],
      [0b11100001#8, 0b00100011#8, 0b01000101#8],
      [0b11110001#8, 0b00100011#8, 0b01000101#8]].map (decode .w20) =
    [(.nopM20 0x12345#20, []),
      (.ldaM20 0x12345#20, []),
      (.addM20 0x12345#20, []),
      (.subM20 0x12345#20, []),
      (.staM20 0x12345#20, []),
      (.ldiM20 0x12345#20, []),
      (.jmpM20 0x12345#20, []),
      (.unmapped7M20 0x12345#20, []),
      (.unmapped8M20 0x12345#20, []),
      (.unmapped9M20 0x12345#20, []),
      (.unmappedAM20 0x12345#20, []),
      (.unmappedBM20 0x12345#20, []),
      (.unmappedCM20 0x12345#20, []),
      (.unmappedDM20 0x12345#20, []),
      (.outM20 0x12345#20, []),
      (.hltM20 0x12345#20, [])].map Except.ok := by
  decide

theorem test_decode_leaves_the_rest : decode .w12 [0x60#8, 0x06#8, 0xF0#8] = .ok (.jmpM12 0x006#12, [0xF0#8]) := by decide

theorem test_decode_rejects_short_input : decode .w20 [0x60#8, 0x06#8] = .error .tooShort := by decide

/-- 95_test_vectors.md section 2.2, one row of each mode and one unmapped. -/
theorem test_codecDecode_vectors :
    codecDecode .w4 [0xD3#8] = { op := .nop, nib := 0xD#4, mapped := false, x := 3 } ∧
    codecDecode .w12 [0x9A#8, 0xBC#8] = { op := .nop, nib := 0x9#4, mapped := false, x := 0xABC } ∧
    codecDecode .w20 [0x6A#8, 0xBC#8, 0xDE#8] = { op := .jmp, nib := 0x6#4, mapped := true, x := 0xABCDE } := by decide

/-- 95_test_vectors.md section 2.1: truncation and layout. -/
theorem test_codecEncode_vectors :
    codecEncode .w4 .lda 0x123456 = [0x16#8] ∧ codecEncode .w12 .jmp 0xABCDE = [0x6C#8, 0xDE#8] ∧
    codecEncode .w20 .lda 0x123456 = [0x12#8, 0x34#8, 0x56#8] ∧ codecEncode .w20 .jmp 0x100000 = [0x60#8, 0x00#8, 0x00#8] := by
  decide

theorem test_encode_unmapped : encode (.unmapped9M12 0xABC#12) = [0x9A#8, 0xBC#8] := by decide

/-- 95_test_vectors.md section 2.6. -/
theorem test_rawSlot_vectors :
    rawSlot .w4 0x7A#8 = [0x7A#8] ∧ rawSlot .w12 0x2A#8 = [0x2A#8, 0x00#8] ∧ rawSlot .w20 0x2A#8 = [0x2A#8, 0x00#8, 0x00#8] := by
  decide

/-- The table's numbering (R67): mask 0xF000 selects the nibble of `b0`. -/
theorem test_decodeTableWord :
    decodeTableWord 8 0x1A = some (.ldaM4 0xA#4) ∧ decodeTableWord 16 0x600A = some (.jmpM12 0x00A#12) ∧
    decodeTableWord 24 0xD12345 = some (.unmappedDM20 0x12345#20) ∧ decodeTableWord 32 0 = none := by decide

theorem test_withFetchWord_runs_the_word :
    ipA (State.reset.withFetchWord 8 0x5F) = some (1#20, 0x0F#8) ∧
    ipA (State.reset.withFetchWord 24 0x5ABCDE) = some (3#20, 0xDE#8) ∧
    ipA ((running .w20 0xFFFFF#20 0x00#8 [(0xFFFFE, 0x77#8)]).withFetchWord 16 0x6123) = some (0x123#20, 0x00#8) := by decide

/-! ### Single steps (95_test_vectors.md section 2.4, row in the comment) -/

/-- Row 1. -/
theorem test_lda_m12 : ipA (running .w12 0x4#20 0x99#8 [(0x4, 0x10#8), (0x5, 0x0A#8), (0xA, 0x02#8)]) = some (0x6#20, 0x02#8) := by decide

/-- Row 2. -/
theorem test_lda_m4_loads_eight_bits : ipA (running .w4 0x0#20 0x00#8 [(0x0, 0x1F#8), (0xF, 0xFF#8)]) = some (0x1#20, 0xFF#8) := by decide

/-- Row 3. -/
theorem test_lda_m12_loads_its_own_byte : ipA (running .w12 0x0#20 0x55#8 [(0x0, 0x10#8)]) = some (0x2#20, 0x10#8) := by decide

/-- Program P4, step 3. -/
theorem test_lda_m20_top_of_memory : ipA (running .w20 0x6#20 0x00#8 [(0x6, 0x1F#8), (0x7, 0xFF#8), (0x8, 0xFF#8), (0xFFFFF, 0xDE#8)]) = some (0x9#20, 0xDE#8) := by decide

/-- Row 7. -/
theorem test_add_m12 : ipA (running .w12 0x6#20 0x02#8 [(0x6, 0x20#8), (0x7, 0x0A#8), (0xA, 0x02#8)]) = some (0x8#20, 0x04#8) := by decide

/-- Row 8. -/
theorem test_add_m4_wraps_at_eight_bits : ipA (running .w4 0x0#20 0xFF#8 [(0x0, 0x25#8), (0x5, 0x01#8)]) = some (0x1#20, 0x00#8) := by decide

/-- Row 9. -/
theorem test_add_m4_no_four_bit_wrap : ipA (running .w4 0x0#20 0x0F#8 [(0x0, 0x25#8), (0x5, 0x01#8)]) = some (0x1#20, 0x10#8) := by decide

/-- Row 10. -/
theorem test_add_m20 : ipA (running .w20 0x0#20 0x80#8 [(0x0, 0x21#8), (0x1, 0x23#8), (0x2, 0x45#8), (0x12345, 0x80#8)]) = some (0x3#20, 0x00#8) := by decide

/-- Row 12. -/
theorem test_sub_m4 : ipA (running .w4 0x2#20 0x05#8 [(0x2, 0x3D#8), (0xD, 0x07#8)]) = some (0x3#20, 0xFE#8) := by decide

/-- Row 13. -/
theorem test_sub_m12_borrow : ipA (running .w12 0x0#20 0x00#8 [(0x0, 0x30#8), (0x1, 0x10#8), (0x10, 0x01#8)]) = some (0x2#20, 0xFF#8) := by decide

/-- Row 15 in mode 20 by R141: 0x80 - 0x01 = 0x7F. -/
theorem test_sub_m20 : ipA (running .w20 0x0#20 0x80#8 [(0x0, 0x30#8), (0x2, 0x10#8), (0x10, 0x01#8)]) = some (0x3#20, 0x7F#8) := by decide

/-- Row 17. -/
theorem test_ldi_m4 : ipA (running .w4 0x0#20 0x99#8 [(0x0, 0x5F#8)]) = some (0x1#20, 0x0F#8) := by decide

/-- Row 19. -/
theorem test_ldi_m12_low_byte : ipA (running .w12 0x0#20 0x99#8 [(0x0, 0x51#8)]) = some (0x2#20, 0x00#8) := by decide

/-- Row 20. -/
theorem test_ldi_m20_low_byte : ipA (running .w20 0x0#20 0x99#8 [(0x0, 0x5A#8), (0x1, 0xBC#8), (0x2, 0xDE#8)]) = some (0x3#20, 0xDE#8) := by decide

/-- R73: `66` is JMP 6. -/
theorem test_jmp_m4 : ipA (running .w4 0xF#20 0x11#8 [(0xF, 0x66#8)]) = some (0x6#20, 0x11#8) := by decide

/-- Row 23. -/
theorem test_jmp_m12_odd_target : ipA (running .w12 0x0#20 0x00#8 [(0x0, 0x60#8), (0x1, 0x05#8)]) = some (0x5#20, 0x00#8) := by decide

/-- Row 24. -/
theorem test_jmp_m20 : ipA (running .w20 0x0#20 0x00#8 [(0x0, 0x6F#8), (0x1, 0xFF#8), (0x2, 0xFF#8)]) = some (0xFFFFF#20, 0x00#8) := by decide

/-- Section 2.5, last row (wrap). -/
theorem test_nop_m4 : ipA (running .w4 0xF#20 0x00#8 []) = some (0x0#20, 0x00#8) := by decide

/-- Row 32. -/
theorem test_nop_m12 : ipA (running .w12 0xA#20 0x04#8 [(0xA, 0x02#8)]) = some (0xC#20, 0x04#8) := by decide

/-- Row 31. -/
theorem test_nop_m20 : ipA (running .w20 0x9#20 0x12#8 []) = some (0xC#20, 0x12#8) := by decide

/-- Row 34. -/
theorem test_unmapped7_m4_is_no_jump : ipA (running .w4 0x0#20 0x11#8 [(0x0, 0x7A#8), (0xA, 0x22#8)]) = some (0x1#20, 0x11#8) := by decide

/-- Row 35. -/
theorem test_unmapped8_m12_is_no_jump : ipA (running .w12 0x0#20 0x11#8 [(0x0, 0x80#8), (0x1, 0x04#8)]) = some (0x2#20, 0x11#8) := by decide

/-- Row 33. -/
theorem test_unmappedB_m4_wraps : ipA (running .w4 0xF#20 0xB4#8 [(0xF, 0xB4#8)]) = some (0x0#20, 0xB4#8) := by decide

/-- Row 36. -/
theorem test_unmappedD_m20 : ipA (running .w20 0x3#20 0x11#8 [(0x3, 0xD1#8), (0x4, 0x23#8), (0x5, 0x45#8)]) = some (0x6#20, 0x11#8) := by decide

/-- Section 2.5, row 1. -/
theorem test_fetch_wraps_m12 : ipA (running .w12 0xFFF#20 0x00#8 [(0x0, 0x6F#8), (0xFFF, 0x50#8)]) = some (0x1#20, 0x6F#8) := by decide

/-- Section 2.5, row 3. -/
theorem test_fetch_wraps_m20_two_bytes : ipA (running .w20 0xFFFFF#20 0x00#8 [(0x0, 0x6F#8), (0x1, 0xFF#8), (0xFFFFF, 0x50#8)]) = some (0x2#20, 0xFF#8) := by decide

/-- Row 4: the byte stored, and `A` and `IP`. -/
theorem test_sta_m12 :
    (nextState (step (running .w12 2#20 0x02#8 [(2, 0x40#8), (3, 0x0A#8)]))).map (fun t => (t.ip, t.a, t.mem)) =
      some (4#20, 0x02#8, [(2, 0x40#8), (3, 0x0A#8), (0xA, 0x02#8)]) := by decide

/-- Row 5: the store overwrites its own byte after the fetch. -/
theorem test_sta_m4_overwrites_itself :
    (nextState (step (running .w4 3#20 0xAB#8 [(3, 0x43#8)]))).map (fun t => (t.ip, t.mem)) = some (4#20, [(3, 0xAB#8)]) := by decide

/-- Storing 0 removes the entry: an unlisted address reads 0 (R30). -/
theorem test_sta_m20_zero_is_unlisted :
    (nextState (step (running .w20 0#20 0x00#8 [(0, 0x4F#8), (1, 0xFF#8), (2, 0xFF#8), (0xFFFFF, 0x77#8)]))).map (fun t => t.mem) =
      some [(0, 0x4F#8), (1, 0xFF#8), (2, 0xFF#8)] := by decide

/-- Row 6: the stored byte is the next instruction, a HLT. -/
theorem test_sta_m4_changes_the_next_instruction :
    ((nextState (step (running .w4 3#20 0xF0#8 [(3, 0x44#8)]))).map fun t => t.fetchInstr) = some (.hltM4 0x0#4) := by decide

/-- Rows 25 and 26, and R152 in mode 20. -/
theorem test_out :
    ((nextState (step (running .w12 8#20 0x04#8 [(8, 0xE0#8)]))).map fun t => (t.ip, t.out)) = some (10#20, [4#8]) ∧
    ((nextState (step (running .w4 0#20 0xC8#8 [(0, 0xE7#8)]))).map fun t => (t.ip, t.out)) = some (1#20, [200#8]) ∧
    ((nextState (step (running .w20 0#20 0xBC#8 [(0, 0xE0#8)]))).map fun t => (t.ip, t.out)) = some (3#20, [188#8]) := by decide

/-- Row 27: OUT from reset emits `ACC_RESET` (D3). -/
theorem test_out_emits_the_reset_accumulator :
    ((nextState (step (State.reset.withFetchWord 8 0xE0))).map fun t => (t.ip, t.out)) = some (1#20, [0#8]) := by decide

/-- Rows 28, 29 and 30, and R153 in mode 20. -/
theorem test_hlt :
    ((nextState (step (running .w4 5#20 0#8 [(5, 0xF0#8)]))).map fun t => (t.ip, t.halted)) = some (6#20, true) ∧
    ((nextState (step (running .w12 10#20 0#8 [(10, 0xFF#8), (11, 0xFF#8)]))).map fun t => (t.ip, t.halted)) = some (12#20, true) ∧
    ((nextState (step (running .w4 15#20 0#8 [(15, 0xF0#8)]))).map fun t => (t.ip, t.halted)) = some (0#20, true) ∧
    ((nextState (step (running .w20 15#20 0#8 [(15, 0xF0#8)]))).map fun t => (t.ip, t.halted)) = some (18#20, true) := by decide

/-- Row 37: halted, no step. -/
theorem test_halted_has_no_step : nextState (step { running .w12 0#20 0#8 [] with halted := true }) = none := by decide

/-- The host sees no dump before the halt, and every byte after it (R195). -/
theorem test_hostView :
    (hostView (running .w4 0#20 0#8 [])).dump = none ∧
    (hostView { running .w4 0#20 0#8 [(15, 0xF0#8)] with halted := true }).dump =
      some (List.replicate 15 0x00#8 ++ [0xF0#8]) := by decide

/-! ### Loader (95_test_vectors.md section 2.7) -/

/-- The header of a mode-4 container. -/
def header4 : List Byte := [0x42#8, 0x45#8, 0x04#8, 0x00#8]

/-- The address and length fields of a record. -/
def fields (addr len : Byte) : List Byte := [0#8, 0#8, 0#8, addr, 0#8, 0#8, 0#8, len]

/-- Rows 1 and 12: no record, and a zero-length record at the top. -/
theorem test_load_without_bytes :
    load header4 = .ok (.w4, []) ∧ load (header4 ++ fields 0x10#8 0#8) = .ok (.w4, []) := by
  constructor <;> decide

/-- Row 3: a record that ends at the top of memory. -/
theorem test_load_top_of_memory :
    load (header4 ++ fields 0x0E#8 2#8 ++ [0x3C#8, 0x78#8]) = .ok (.w4, [(14, 0x3C#8), (15, 0x78#8)]) := by decide +kernel

/-- Row 5: overlap, the last write wins. -/
theorem test_load_overlap :
    load (header4 ++ fields 0#8 2#8 ++ [0x11#8, 0x22#8] ++ fields 1#8 2#8 ++ [0x33#8, 0x44#8]) =
      .ok (.w4, [(0, 0x11#8), (1, 0x33#8), (2, 0x44#8)]) := by decide +kernel

/-- Row 13: the reserved byte is not examined. -/
theorem test_load_reserved_byte :
    load ([0x42#8, 0x45#8, 0x04#8, 0x07#8] ++ fields 0#8 1#8 ++ [0xF0#8]) = .ok (.w4, [(0, 0xF0#8)]) := by decide

/-- Rows 4, 6, 8, 9, 10, 11 and 15: loads that fail. -/
theorem test_load_fails :
    [(header4 ++ fields 0x0F#8 2#8 ++ [0x3C#8, 0x78#8]),
      [0x42#8, 0x45#8, 0x05#8, 0x00#8],
      [0x42#8, 0x46#8, 0x04#8, 0x00#8],
      [0x42#8, 0x45#8, 0x04#8],
      (header4 ++ fields 0#8 4#8 ++ [0x52#8, 0xF0#8]),
      (header4 ++ [0#8, 0#8, 0#8]),
      (header4 ++ [0xFF#8, 0xFF#8, 0xFF#8, 0xFF#8, 0#8, 0#8, 0#8, 2#8, 0#8, 0#8])].map load =
    [.error .memoryRangeError,
      .error .addressWidthError,
      .error .headerError,
      .error .headerError,
      .error .ioError,
      .error .ioError,
      .error .memoryRangeError] := by decide

/-- R192's example header and record fields, for one line. -/
theorem test_writeContainer :
    writeContainer .w12 [{ addr := 0, payload := [0x50#8, 0x02#8] }] =
      [0x42#8, 0x45#8, 0x0C#8, 0x00#8] ++ fields 0#8 2#8 ++ [0x50#8, 0x02#8] := by decide

/-! ### Assembler (95_test_vectors.md sections 1.1 and 2.8) -/

theorem test_parseLiteral :
    parseLiteral ['0', 'x', '1', 'F'] = .ok 31 ∧ parseLiteral ['0', 'b', '1', '0', '1'] = .ok 5 ∧
    parseLiteral ['4', '2'] = .ok 42 ∧ parseLiteral ['0', 'x', 'F', 'G'] = .error .numberFormatError ∧
    parseLiteral ['0', 'x'] = .error .numberFormatError ∧ parseLiteral [] = .error .numberFormatError := by decide

theorem test_classifyLine :
    classifyLine [['l', 'd', 'i'], ['0', 'x', '0', '2']] = .ok (.instruction .ldi 2) ∧
    classifyLine [['o', 'u', 't']] = .error .numberFormatError ∧
    classifyLine [['F', 'F']] = .error .opcodeError ∧
    classifyLine [['3', '0', '0']] = .ok (.raw 0x2C#8) ∧
    classifyLine [['M', 'O', 'V'], ['1']] = .error .opcodeError ∧
    classifyLine [['L', 'D', 'I'], ['1'], ['2']] = .error .lineError ∧
    classifyLine [] = .error .lineError ∧
    classifyLine [['L', 'D', 'A', 'X'], ['3']] = .ok (.instruction .lda 3) := by decide

/-- R92's example source as the spec prints it, two lines of text. -/
def exampleText : List Char :=
  ['1', '2', '\n', '0', ' ', openBraceChar, ' ', 'L', 'D', 'I', ' ', '2', ';', ' ', 'S', 'T', 'A', ' ', '1', '0', ';',
   ' ', 'L', 'D', 'A', ' ', '1', '0', ';', ' ', 'A', 'D', 'D', ' ', '1', '0', ';', ' ', 'O', 'U', 'T', ';', ' ', 'H',
   'L', 'T', ' ', closeBraceChar]

/-- R92's example source, tokenized by hand. -/
def exampleSource : List Token :=
  [.word ['1', '2'], .word ['0'], .openBrace, .word ['L', 'D', 'I'], .word ['2'], .semicolon,
   .word ['S', 'T', 'A'], .word ['1', '0'], .semicolon, .word ['L', 'D', 'A'], .word ['1', '0'], .semicolon,
   .word ['A', 'D', 'D'], .word ['1', '0'], .semicolon, .word ['O', 'U', 'T'], .semicolon, .word ['H', 'L', 'T'], .closeBrace]

/-- R92: one block at 0 whose twelve payload bytes are `50 02 40 0A 10 0A 20 0A E0 00 F0 00`. -/
theorem test_assemble_example :
    assemble exampleSource =
      { mode := some .w12
        blocks := [{ addr := 0, lines := [.instruction .ldi 2, .instruction .sta 10, .instruction .lda 10,
          .instruction .add 10, .instruction .out 0, .instruction .hlt 0] }]
        error := none } := by rfl

/-- R82, R86: the text's tokens are those tokenized by hand. -/
theorem test_tokenize_example : tokenize [] exampleText = exampleSource := by decide

/-- R80, R92: the text assembles as its tokens do. -/
theorem test_assembleText_example : (assembleText exampleText).error = none ∧
    (assembleText exampleText).blocks.map (fun b => (b.addr, b.lines.length)) = [(0, 6)] := by decide

/-- R82: delimiters need no white space around them; a line break inside a statement is white space (log 23). -/
theorem test_tokenize_tight : tokenize [] ['0', openBraceChar, 'L', 'D', 'I', '\n', '2', ';', closeBraceChar] =
    [.word ['0'], .openBrace, .word ['L', 'D', 'I'], .word ['2'], .semicolon, .closeBrace] := by decide

/-- Its payload (R92, R111). -/
theorem test_payload_of_the_example :
    payload .w12 [.instruction .ldi 2, .instruction .sta 10, .instruction .lda 10, .instruction .add 10,
      .instruction .out 0, .instruction .hlt 0] =
      [0x50#8, 0x02#8, 0x40#8, 0x0A#8, 0x10#8, 0x0A#8, 0x20#8, 0x0A#8, 0xE0#8, 0x00#8, 0xF0#8, 0x00#8] := by decide

/-- R90, C7: the block before the failing one has been written. -/
theorem test_assemble_keeps_blocks_before_an_error :
    assemble [.word ['4'], .word ['0'], .openBrace, .word ['H', 'L', 'T'], .closeBrace, .word ['Z'], .openBrace] =
      { mode := some .w4, blocks := [{ addr := 0, lines := [.instruction .hlt 0] }], error := some .addressError } := by decide

/-- R80, R86: illegal mode, end of input inside a block, empty statement, missing brace. -/
theorem test_assemble_errors :
    (assemble [.word ['8']]).error = some .addressWidthError ∧
    (assemble [.word ['4'], .word ['0'], .openBrace, .word ['H', 'L', 'T']]).error = some .blockError ∧
    (assemble [.word ['4'], .word ['0'], .openBrace, .semicolon, .closeBrace]).error = some .lineError ∧
    (assemble [.word ['4'], .word ['0'], .word ['H', 'L', 'T']]).error = some .blockError := by decide

/-- R87. -/
theorem test_stripComments : stripComments false ['1', '#', 'x', '\n', '2'] = ['1', '\n', '2'] := by decide

/-! ### Witnesses: for every statement with hypotheses, states and operands that meet all of them together, at the ends of
the ranges its clauses speak of -/

/-- The least and the greatest unmapped nibble, the mapped ones beside them, and the literal `5`. -/
theorem witness_opcode_ranges :
    opcodeOf 0x7#4 = none ∧ opcodeOf 0xD#4 = none ∧ opcodeOf 0x6#4 = some .jmp ∧ opcodeOf 0xE#4 = some .out ∧
    (7 ≤ (0x7#4 : Nibble).toNat ∧ (0x7#4 : Nibble).toNat ≤ 13) ∧ (7 ≤ (0xD#4 : Nibble).toNat ∧ (0xD#4 : Nibble).toNat ≤ 13) := by
  decide

/-- EncodingADecodingRestoresMappedBytesOnly, DecodeIsTotal, OnlyTheFirstBytesTakePart, ExactlyOneSelectLineIsAsserted:
bytes of the right length, one mapped and two unmapped at the ends of the range. -/
theorem witness_codec_bytes :
    [0x1A#8].length = Mode.instrBytes .w4 ∧ (codecDecode .w4 [0x1A#8]).mapped = true ∧
    [0xD0#8, 0x00#8].length = Mode.instrBytes .w12 ∧ (codecDecode .w12 [0xD0#8, 0x00#8]).mapped = false ∧
    [0x7F#8, 0xFF#8, 0xFF#8].length = Mode.instrBytes .w20 ∧ (codecDecode .w20 [0x7F#8, 0xFF#8, 0xFF#8]).nib = 0x7#4 := by decide

/-- DecodeUndoesEncode and EncodeUndoesDecode: a well-formed instruction with the greatest operand, bytes that decode, and
bytes that are one too few. -/
theorem witness_round_trips :
    Instr.wellFormed .w20 (.unmappedDM20 0xFFFFF#20) = true ∧
    decode .w12 [0xFF#8, 0xFF#8, 0x01#8] = .ok (.hltM12 0xFFF#12, [0x01#8]) ∧
    [0xFF#8].length < Mode.instrBytes .w12 := by decide

/-- The statements of LDA, STA, ADD, SUB, LDI, JMP, OUT, HLT, NOP and the unmapped nibbles: a literal that parses, and states in
each of the three modes. -/
theorem witness_instruction_statements :
    parseLiteral ['5'] = .ok 5 ∧ (running .w4 0xF#20 0xFF#8 [(0xF, 0xFF#8)]).mode = .w4 ∧
    (running .w12 0xFFF#20 0x00#8 [(0xFFF, 0x80#8)]).mode = .w12 ∧
    (running .w20 0xFFFFF#20 0x80#8 [(0xFFFFF, 0x01#8)]).mode = .w20 := by decide

/-- StaStoresTheAccumulator, frame clause: another address exists, in each mode. -/
theorem witness_sta_frame :
    0 ≠ effectiveAddress (running .w4 0#20 0#8 []).mode (0xF#4).toNat ∧
    0 ≠ effectiveAddress (running .w12 0#20 0#8 []).mode (0xFFF#12).toNat ∧
    0 ≠ effectiveAddress (running .w20 0#20 0#8 []).mode (0xFFFFF#20).toNat := by decide

/-- IgnoredOperandsDoNotChangeTheEffect: two instructions of one mode and one ignoring nibble with different operands, and a
mnemonic with a literal. -/
theorem witness_ignored_operands :
    Instr.mode (.outM12 0x000#12) = Instr.mode (.outM12 0xFFF#12) ∧ Instr.nibble (.outM12 0x000#12) = Instr.nibble (.outM12 0xFFF#12) ∧
    Instr.nibble (.outM12 0x000#12) ∈ [0x0#4, 0x7#4, 0x8#4, 0x9#4, 0xA#4, 0xB#4, 0xC#4, 0xD#4, 0xE#4, 0xF#4] ∧
    (['O', 'U', 'T'], Op.out) ∈ mnemonicTable ∧ parseLiteral ['5'] = .ok 5 := by decide

/-- WhoReadsAndWritesTheAccumulator: for each clause an instruction of its opcodes that answers a next state, with two
different accumulators. -/
theorem witness_accumulator :
    let s := running .w4 0#20 0x01#8 [(5, 0x02#8)]
    let t : State := { s with a := 0x03#8 }
    (Instr.op (.staM4 5#4) = .sta ∧ (nextState (exec (.staM4 5#4) s)).isSome ∧ (nextState (exec (.staM4 5#4) t)).isSome) ∧
    (Instr.op (.addM4 5#4) = .add ∧ (nextState (exec (.addM4 5#4) s)).isSome ∧ (nextState (exec (.addM4 5#4) t)).isSome) ∧
    (Instr.op (.outM4 5#4) = .out ∧ (nextState (exec (.outM4 5#4) s)).isSome ∧ (nextState (exec (.outM4 5#4) t)).isSome) ∧
    (Instr.op (.jmpM4 5#4) = .jmp ∧ (nextState (exec (.jmpM4 5#4) s)).isSome) ∧
    Instr.op (.ldaM4 5#4) = .lda ∧ Instr.op (.unmapped7M4 5#4) = .nop ∧ t.a ≠ s.a := by decide

/-- A running state that meets the invariant and fetches `W`-dependent bytes across the top of memory: for
StepRunsTheDecodedInstruction, StepFollowsTheSequencerPseudocode, EveryRunningStateHasExactlyOneSuccessor,
StepKeepsTheInvariant and EachPieceOfStateHasOneWriter. -/
theorem witness_running_state :
    let s := running .w12 0xFFF#20 0x00#8 [(0, 0x6F#8), (0xFFF, 0x50#8)]
    s.halted = false ∧ (s.mem.wf = true ∧ (∀ c ∈ s.mem, c.1 < s.mode.memSize) ∧ s.ip.toNat < s.mode.memSize) ∧
    decode s.mode ((List.range s.mode.instrBytes).map fun j => s.mem.read ((s.ip.toNat + j) % 2 ^ s.mode.width)) =
      .ok (.ldiM12 0x06F#12, []) ∧ (nextState (step s)).isSome = true := by decide

/-- EachPieceOfStateHasOneWriter and ARunStopsOnlyByHlt: steps of a JMP, of a STA, of an OUT and of a HLT, and a run of one
step that halts. -/
theorem witness_writers :
    let j := running .w4 15#20 0#8 [(15, 0x60#8)]
    let o := running .w4 0#20 0#8 [(0, 0xE0#8)]
    let h := running .w4 15#20 0#8 [(15, 0xF0#8)]
    (j.fetchInstr.op = .jmp ∧ (nextState (step j)).isSome) ∧ (o.fetchInstr.op = .out ∧ (nextState (step o)).isSome) ∧
    (h.fetchInstr.op = .hlt ∧ (nextState (step h)).isSome ∧ h.halted = false ∧ (run 1 h).halted = true) := by decide

/-- HaltedMeansNoStep and HltSetsHaltedAndNothingElse: a halted state. -/
theorem witness_halted : (State.halt State.reset).halted = true ∧ nextState (step (State.halt State.reset)) = none := by decide

/-- OutputPortMatchesTheTrace: a state whose port is valid, and one whose port is not. -/
theorem witness_port :
    outPort (running .w4 0#20 0x07#8 [(0, 0xE0#8)]) = some 0x07#8 ∧ outPort (running .w4 0#20 0x07#8 []) = none := by decide

/-- AStoreIsSeenByTheNextFetch: a step of STA whose next fetch covers the stored address. -/
theorem witness_store_then_fetch :
    let s := running .w4 3#20 0xF0#8 [(3, 0x44#8)]
    s.fetchInstr.op = .sta ∧ (nextState (step s)).map State.fetch = some [0xF0#8] := by decide

/-- ZeroMemoryIsARunOfNops: a running state with zero memory whose next step wraps. -/
theorem witness_zero_memory :
    let s := running .w20 0xFFFFF#20 0x12#8 []
    s.mem = [] ∧ s.halted = false ∧ s.ip.toNat < s.mode.memSize ∧ (run 1 s).ip = 2#20 := by decide

/-- APlacedWordRunsNext: the greatest word of each mode. -/
theorem witness_placed_word :
    0xFF < 2 ^ (8 * Mode.instrBytes .w4) ∧ 0xFFFF < 2 ^ (8 * Mode.instrBytes .w12) ∧ 0xFFFFFF < 2 ^ (8 * Mode.instrBytes .w20) := by
  decide

/-- LoadingAWrittenContainerGivesItsImage, ARecordBeyondMemoryFailsTheLoad and ATruncatedRecordFailsTheLoad: overlapping records
that fit, the last one ending at the top of memory, one record a byte too long, and a cut inside a record. -/
theorem witness_records :
    let fit : List Record := [{ addr := 0, payload := [0x11#8, 0x22#8] }, { addr := 14, payload := [0x3C#8, 0x78#8] }]
    let long : Record := { addr := 15, payload := [0x3C#8, 0x78#8] }
    (∀ r ∈ fit, r.addr + r.payload.length ≤ 2 ^ Mode.width .w4) ∧
    long.addr < 2 ^ 32 ∧ long.payload.length < 2 ^ 32 ∧ 2 ^ Mode.width .w4 < long.addr + long.payload.length ∧
    0 < 9 ∧ 9 < (recordBytes { addr := 14, payload := [0x3C#8, 0x78#8] }).length := by decide

/-- HeaderChecksOfTheLoader: one stream for each clause. -/
theorem witness_headers :
    [0x42#8, 0x45#8, 0x04#8].length < 4 ∧ (0x46#8 : Byte) ≠ 0x45#8 ∧ (0x05#8 : Byte).toNat ∉ [4, 12, 20] := by decide

/-- LaunchIsLoadAndReset: a launch that succeeds. -/
theorem witness_launch : launch [0x42#8, 0x45#8, 0x14#8, 0x00#8] = .ok (State.start .w20 []) := by decide

/-- LiteralsAreReadInTheirBase: digit strings of each base within the range (the greatest value), and a decimal just above it. -/
theorem witness_literals :
    ([4, 2, 9, 4, 9, 6, 7, 2, 9, 5] : List (Fin 10)).foldl (fun v d => v * 10 + d.val) 0 ≤ 2 ^ 32 - 1 ∧
    2 ^ 32 - 1 < ([4, 2, 9, 4, 9, 6, 7, 2, 9, 6] : List (Fin 10)).foldl (fun v d => v * 10 + d.val) 0 ∧
    'B' ∈ ['b', 'B'] ∧ ([1, 0, 1] : List (Fin 2)).foldl (fun v d => v * 2 + d.val) 0 ≤ 2 ^ 32 - 1 ∧
    'X' ∈ ['x', 'X'] ∧ ([(15, true), (15, false)] : List (Fin 16 × Bool)).foldl (fun v d => v * 16 + d.1.val) 0 ≤ 2 ^ 32 - 1 := by
  decide

/-- StatementsAreClassifiedBySegments and MnemonicLookupUsesThreeCharactersInAnyCase: segments for each clause. -/
theorem witness_statements :
    lookupMnemonic ['l', 'd', 'i'] = .ok .ldi ∧ parseLiteral ['3', '0', '0'] = .ok 300 ∧
    ('A' ≤ 'H' ∧ 'H' ≤ 'Z') ∧ lookupMnemonic ['H', 'L', 'T'] = .ok .hlt ∧ ¬ ('A' ≤ '3' ∧ '3' ≤ 'Z') ∧
    3 ≤ ['L', 'D', 'A'].length ∧ ['L', 'D'].length < 3 := by decide

/-- ABlockIsReadLineByLine: an address literal and statements that classify. -/
theorem witness_block :
    parseLiteral ['0'] = .ok 0 ∧ classifyLine [['O', 'U', 'T']] = .ok (.instruction .out 0) ∧
    List.Forall₂ (fun st l => classifyLine st = .ok l) [[['O', 'U', 'T']], [['5']]] [.instruction .out 0, .raw 0x05#8] := by
  refine ⟨by decide, by decide, .cons (by decide) (.cons (by decide) .nil)⟩

/-- SegmentsAreTheWordsBetweenWhiteSpace: a blank of each kind of white space, and a word. -/
theorem witness_segments :
    ([' ', '\t', '\r', '\n'] : List Char) ≠ [] ∧ (∀ c ∈ [' ', '\t', '\r', '\n'], c ∈ [' ', '\t', '\r', '\n']) ∧
    ([] : List Char) ≠ ['L'] ∧ (∀ c ∈ ['L', 'D', 'A'], c ∉ [' ', '\t', '\r', '\n']) := by simp

/-- ALineIsTheTextBetweenSemicolons: an address and two statement texts with white space in them, both closings, and a text
of white space alone, whose classification fails (R82). -/
theorem witness_block_text :
    (∀ st ∈ [['0', ' '], [' ', 'L', 'D', 'I', '\n', '2'], ['H', 'L', 'T', ' ']], ∀ c ∈ st,
      c ∉ [';', Char.ofNat 0x7B, Char.ofNat 0x7D]) ∧
    segments ['0', ' '] = [['0']] ∧ parseLiteral ['0'] = .ok 0 ∧
    List.Forall₂ (fun st l => classifyLine (segments st) = .ok l)
      [[' ', 'L', 'D', 'I', '\n', '2'], ['H', 'L', 'T', ' ']] [.instruction .ldi 2, .instruction .hlt 0] ∧
    (([';', ' '] : List Char) = [] ∨ ∃ blank, ([';', ' '] : List Char) = ';' :: blank ∧ ∀ c ∈ blank, c ∈ [' ', '\t', '\r', '\n']) ∧
    (∀ c ∈ [' '], c ∉ [';', Char.ofNat 0x7B, Char.ofNat 0x7D]) ∧ classifyLine (segments [' ']) = .error .lineError := by
  refine ⟨by simp, by decide, by decide, ?_, .inr ⟨[' '], rfl, by simp⟩, by simp, by decide⟩
  exact .cons (by decide) (.cons (by decide) .nil)

/-- CommentsDoNotChangeTheAssembly: a text without `#`, and a comment that holds a `;` and a `#`. -/
theorem witness_comment : '#' ∉ ['1', '2', '\n'] ∧ '\n' ∉ ['a', ';', '#', '\r'] := by decide

/-- AnAssembledBlockLandsSlotBySlot: a block that ends exactly at the top of memory. -/
theorem witness_assembled_block :
    0xFFC + ([.instruction .ldi 2, .raw 0x2A#8] : List Line).length * Mode.instrBytes .w12 ≤ 2 ^ Mode.width .w12 ∧
    ([.instruction .ldi 2, .raw 0x2A#8] : List Line)[1]? = some (.raw 0x2A#8) ∧ 1 < Mode.instrBytes .w12 := by decide

end Sys2Proof.Tests
end

section
/-! SUPPORT. Who reads and who writes the accumulator (R27): each opcode's effect on a state whose accumulator is replaced,
and a state in which each writer changes it. Settles O25. -/

namespace Sys2Proof.Machine

/-- The one state an instruction can answer (R125). -/
theorem eq_effect_of_exec_eq_next {i : Instr} {s t : State} (h : exec i s = .next t) : t = effect i.op i.operand s := by
  rw [exec_eq_effect] at h
  cases h
  rfl

/-! ### The opcodes that do not read the accumulator -/

/-- LDA and LDI overwrite the accumulator with a value that does not depend on it (R130, R142). -/
theorem effect_setA_of_overwriter {op : Op} (h : op ∈ [Op.lda, Op.ldi]) (x : Nat) (s : State) (v : Byte) :
    effect op x (s.setA v) = effect op x s := by
  simp only [List.mem_cons, List.not_mem_nil, or_false] at h
  rcases h with rfl | rfl <;> rfl

/-- JMP, HLT and NOP, which the unmapped nibbles execute as, leave any accumulator as it is (R150, R153, R154, R155). -/
theorem effect_setA_of_bystander {op : Op} (h : op ∈ [Op.jmp, Op.hlt, Op.nop]) (x : Nat) (s : State) (v : Byte) :
    effect op x (s.setA v) = (effect op x s).setA v := by
  simp only [List.mem_cons, List.not_mem_nil, or_false] at h
  rcases h with rfl | rfl | rfl <;> rfl

/-! ### The opcodes that read it -/

/-- ADD and SUB are injective in the accumulator: addition and subtraction modulo 256 can be cancelled (R140, R141). -/
theorem effect_a_ne_of_arithmetic {op : Op} (h : op ∈ [Op.add, Op.sub]) (x : Nat) {s : State} {v : Byte} (hv : v ≠ s.a) :
    (effect op x (s.setA v)).a ≠ (effect op x s).a := by
  simp only [List.mem_cons, List.not_mem_nil, or_false] at h
  rcases h with rfl | rfl
  · exact fun e => hv (add_right_cancel (b := s.readOperand x) e)
  · exact fun e => hv (sub_left_injective (b := s.readOperand x) e)

/-- OUT appends the accumulator, so another accumulator gives another trace (R152). -/
theorem effect_out_ne {s : State} {v : Byte} (x : Nat) (hv : v ≠ s.a) :
    (effect .out x (s.setA v)).out ≠ (effect .out x s).out := by
  simpa [effect_out] using hv

/-- STA stores the accumulator at its effective address, so another accumulator leaves another byte there (R131). -/
theorem effect_sta_read_ne {s : State} {v : Byte} (x : Nat) (hv : v ≠ s.a) :
    (effect .sta x (s.setA v)).mem.read (effectiveAddress s.mode x) ≠
      (effect .sta x s).mem.read (effectiveAddress s.mode x) := by
  simpa [effect_mem] using hv

/-! ### The opcodes that write it -/

/-- The byte just stored at an operand's address is what the operand reads as (R46). -/
@[simp] theorem State.readOperand_writeOperand (s : State) (x : Nat) (v : Byte) : (s.writeOperand x v).readOperand x = v := by
  simp [State.readOperand]

/-- None of STA, OUT, JMP, HLT and NOP is a writer of the accumulator (R27). -/
theorem not_writer_of_keeper {op : Op} (h : op ∈ [Op.sta, Op.out, Op.jmp, Op.hlt, Op.nop]) :
    op ∉ [Op.lda, Op.add, Op.sub, Op.ldi] := by
  revert op
  decide

/-- Each writer changes the accumulator of some state: LDA, ADD and SUB the 0 of reset when their operand's byte is 1, LDI any
accumulator other than its immediate. -/
theorem exists_effect_a_ne_of_writer {op : Op} (h : op ∈ [Op.lda, Op.add, Op.sub, Op.ldi]) (x : Nat) :
    ∃ s, (effect op x s).a ≠ s.a := by
  simp only [List.mem_cons, List.not_mem_nil, or_false] at h
  rcases h with rfl | rfl | rfl | rfl
  · exact ⟨State.reset.writeOperand x 0x01#8, by simp [effect, State.reset]⟩
  · exact ⟨State.reset.writeOperand x 0x01#8, by simp [effect, State.reset, aluAdd]⟩
  · exact ⟨State.reset.writeOperand x 0x01#8, by simp [effect, State.reset, aluSub]⟩
  · exact ⟨State.reset.setA (immediate x + 1), by simp [effect]⟩

/-- Settles O25: `exec` is the effect of the opcode, and each clause is one of the lemmas above about that effect. -/
theorem whoReadsAndWritesTheAccumulator : Obligations.WhoReadsAndWritesTheAccumulator := by
  refine ⟨fun i s t h hop => ?_, fun i hop => ?_, fun i s v hop => ?_, fun i s t v hop h => ?_,
    fun i s t u v ht hu hv => ?_⟩
  · rw [eq_effect_of_exec_eq_next h]
    exact effect_a_of_not_writer _ _ (not_writer_of_keeper hop)
  · obtain ⟨s, hs⟩ := exists_effect_a_ne_of_writer hop i.operand
    exact ⟨s, _, exec_eq_effect i s, hs⟩
  · rw [exec_eq_effect, exec_eq_effect]
    exact congrArg _ (effect_setA_of_overwriter hop i.operand s v)
  · rw [exec_eq_effect, eq_effect_of_exec_eq_next h]
    exact congrArg _ (effect_setA_of_bystander hop i.operand s v)
  · rw [eq_effect_of_exec_eq_next ht, eq_effect_of_exec_eq_next hu]
    refine ⟨fun hop => effect_a_ne_of_arithmetic hop i.operand hv, fun hop => ?_, fun hop => ?_⟩ <;> rw [hop]
    · exact effect_out_ne i.operand hv
    · exact effect_sta_read_ne i.operand hv

end Sys2Proof.Machine
end

section
/-! SUPPORT. The classification of a statement by its segments (R82): one law for each of the four cases. Settles O44. -/

namespace Sys2Proof.Machine

theorem startsUppercase_cons (c : Char) (cs : List Char) :
    startsUppercase (c :: cs) = true ↔ 'A' ≤ c ∧ c ≤ 'Z' := decide_eq_true_iff

/-- Two segments: an opcode and its operand, as written (R83). -/
theorem classifyLine_pair {word operand : List Char} {op : Op} {v : Nat} (hop : lookupMnemonic word = .ok op)
    (hv : parseLiteral operand = .ok v) : classifyLine [word, operand] = .ok (.instruction op v) := by
  simp [classifyLine, hop, hv]

/-- One segment with an uppercase initial: a bare opcode, whose operand is 0 (R84). -/
theorem classifyLine_bareOpcode {word : List Char} {op : Op} (hup : startsUppercase word = true)
    (hop : lookupMnemonic word = .ok op) : classifyLine [word] = .ok (.instruction op 0) := by
  simp [classifyLine, hup, hop]

/-- One segment without an uppercase initial: a raw byte (R85). -/
theorem classifyLine_raw {word : List Char} {v : Nat} (hup : ¬ startsUppercase word = true)
    (hv : parseLiteral word = .ok v) : classifyLine [word] = .ok (.raw (BitVec.ofNat 8 v)) := by
  simp [classifyLine, hup, hv]

/-- Any other number of segments: a `LineError` (R82). -/
theorem classifyLine_lineError {segments : List (List Char)} (h : segments.length = 0 ∨ 2 < segments.length) :
    classifyLine segments = .error .lineError := by
  match segments with
  | [] => rfl
  | [_] => simp at h
  | [_, _] => simp at h
  | _ :: _ :: _ :: _ => rfl

/-- Settles O44: the four laws above; the byte of a raw line keeps the low 8 bits of its literal. -/
theorem statementsAreClassifiedBySegments : Obligations.StatementsAreClassifiedBySegments := by
  refine ⟨fun word operand op v => classifyLine_pair, fun c cs op hA hZ hop => ?_, fun c cs v hc hv => ?_,
    fun segments => classifyLine_lineError⟩
  · exact classifyLine_bareOpcode ((startsUppercase_cons c cs).mpr ⟨hA, hZ⟩) hop
  · have low8 : BitVec.ofNat 8 (v % 256) = BitVec.ofNat 8 v := BitVec.eq_of_toNat_eq (by simp)
    rw [low8]
    exact classifyLine_raw (mt (startsUppercase_cons c cs).mp hc) hv

end Sys2Proof.Machine
end

section
/-! SUPPORT. The instructions that ignore their operand (R70): what they execute as, and what the assembler writes in their
operand field. Settles O24. -/

namespace Sys2Proof.Machine

/-- A nibble other than those of LDA, ADD, SUB, STA, LDI and JMP executes as NOP, OUT or HLT (R104, R155). -/
theorem op_mem_of_ignoring_nibble {i : Instr}
    (h : i.nibble ∈ [0x0#4, 0x7#4, 0x8#4, 0x9#4, 0xA#4, 0xB#4, 0xC#4, 0xD#4, 0xE#4, 0xF#4]) :
    i.op ∈ [Op.nop, Op.out, Op.hlt] := by
  rw [Instr.op]
  generalize i.nibble = n at h ⊢
  revert n
  decide

/-- NOP, OUT and HLT do not read their operand (R152, R153, R154). -/
theorem effect_operand_irrelevant {op : Op} (h : op ∈ [Op.nop, Op.out, Op.hlt]) (x y : Nat) (s : State) :
    effect op x s = effect op y s := by
  simp only [List.mem_cons, List.not_mem_nil, or_false] at h
  rcases h with rfl | rfl | rfl <;> rfl

/-- Each of the nine mnemonics is a segment that begins with an uppercase letter and names its opcode (R83, R84). -/
theorem mnemonicTable_reads_back {m : List Char} {op : Op} (h : (m, op) ∈ mnemonicTable) :
    startsUppercase m = true ∧ lookupMnemonic m = .ok op := by
  have all : ∀ e ∈ mnemonicTable, startsUppercase e.1 = true ∧ lookupMnemonic e.1 = .ok e.2 := by decide
  exact all _ h

/-- The slot of an instruction holds its operand masked to `W` bits (R103). -/
theorem slot_instruction_mod (W : Mode) (op : Op) (x : Nat) :
    slot W (.instruction op x) = codecEncode W op (x % 2 ^ W.width) := (packFields_mod W op.code x).symm

/-- Settles O24: the effect is that of NOP, OUT or HLT, none of which reads its operand; the assembler's clauses are R82's
laws for a mnemonic of the table, and the masking of ENCODE. -/
theorem ignoredOperandsDoNotChangeTheEffect : Obligations.IgnoredOperandsDoNotChangeTheEffect := by
  refine ⟨fun i j s _ hnib hi => ?_, fun op _ m hm => ?_, by decide⟩
  · have hop : j.op = i.op := by rw [Instr.op, Instr.op, hnib]
    rw [exec_eq_effect, exec_eq_effect, hop,
      effect_operand_irrelevant (op_mem_of_ignoring_nibble hi) i.operand j.operand]
  · obtain ⟨hup, hlookup⟩ := mnemonicTable_reads_back hm
    exact ⟨classifyLine_bareOpcode hup hlookup,
      fun literal n hn W => ⟨classifyLine_pair hlookup hn, slot_instruction_mod W op n⟩⟩

end Sys2Proof.Machine
end

section
/-! SUPPORT. The codec's statements about its opcode table (R108) and its format tables (R102 to R106, R113), on the laws of
packed fields. Settles O2, O3, O4, O5, O6, O8 and O9. -/

namespace Sys2Proof

/-! ### The opcode table -/

/-- `opcode_of` is undefined exactly on the range of nibbles between the codes of JMP and OUT (R108). -/
theorem opcodeOf_eq_none_iff (n : Nibble) : opcodeOf n = none ↔ 7 ≤ n.toNat ∧ n.toNat ≤ 13 := by
  revert n
  decide

/-- The nibbles that name an opcode are the nine codes (R66, R104). -/
theorem opcodeOf_isSome_iff (n : Nibble) :
    (opcodeOf n).isSome = true ↔ n ∈ [0x0#4, 0x1#4, 0x2#4, 0x3#4, 0x4#4, 0x5#4, 0x6#4, 0xE#4, 0xF#4] := by
  revert n
  decide

/-- The seven nibbles left over name no opcode (R66, R108). -/
theorem opcodeOf_eq_none_of_mem {n : Nibble} (h : n ∈ [0x7#4, 0x8#4, 0x9#4, 0xA#4, 0xB#4, 0xC#4, 0xD#4]) :
    opcodeOf n = none := by
  revert n
  decide

/-- Settles O2: the nine codes stand in the table, and `opcode_of` is their partial inverse. -/
theorem opcodeTableHasAPartialInverse : Obligations.OpcodeTableHasAPartialInverse :=
  ⟨rfl, rfl, rfl, rfl, rfl, rfl, rfl, rfl, rfl, opcodeOf_code, fun _ _ => opcodeOf_eq_some, opcodeOf_eq_none_iff⟩

/-! ### ENCODE -/

/-- Mode 4: the byte of format M4 (R102). -/
theorem codecEncode_w4 (op : Op) (x : Nat) : codecEncode .w4 op x = formatM4 op.code (BitVec.ofNat 4 x) := by
  rw [formatM4_eq, BitVec.toNat_ofNat]
  exact (packFields_mod .w4 op.code x).symm

/-- Mode 12: the two bytes of format M12 (R102). -/
theorem codecEncode_w12 (op : Op) (x : Nat) : codecEncode .w12 op x = formatM12 op.code (BitVec.ofNat 12 x) := by
  rw [formatM12_eq, BitVec.toNat_ofNat]
  exact (packFields_mod .w12 op.code x).symm

/-- Mode 20: the three bytes of format M20 (R102). -/
theorem codecEncode_w20 (op : Op) (x : Nat) : codecEncode .w20 op x = formatM20 op.code (BitVec.ofNat 20 x) := by
  rw [formatM20_eq, BitVec.toNat_ofNat]
  exact (packFields_mod .w20 op.code x).symm

/-- Settles O3: each format table is the packing of the same fields, and the number of packed fields is known. -/
theorem encodeFollowsTheFormatTables : Obligations.EncodeFollowsTheFormatTables :=
  ⟨codecEncode_w4, codecEncode_w12, codecEncode_w20,
    fun W op x => ⟨packFields_number W op.code x, packFields_length W op.code x⟩⟩

/-- Settles O5: packing reduces the operand modulo `2^W` itself; the rule's two examples are evaluated. -/
theorem encodeTruncatesTheOperandSilently : Obligations.EncodeTruncatesTheOperandSilently :=
  ⟨fun W op x => (packFields_mod W op.code x).symm, by decide, by decide⟩

/-! ### DECODE -/

/-- DECODE of exactly the packed bytes of a nibble and an operand that fits (R104). -/
theorem codecDecode_packFields_of_lt {W : Mode} {x : Nat} (nib : Nibble) (h : x < 2 ^ W.width) :
    codecDecode W (packFields W nib x) =
      { op := (opcodeOf nib).getD .nop, nib := nib, mapped := (opcodeOf nib).isSome, x := x } := by
  simpa [Nat.mod_eq_of_lt h] using codecDecode_packFields W nib x []

/-- Settles O4: the format tables are packings of an operand that fits, which DECODE undoes. -/
theorem decodeFollowsTheFormatTables : Obligations.DecodeFollowsTheFormatTables := by
  refine ⟨fun n x => ?_, fun n x => ?_, fun n x => ?_, opcodeOf_isSome_iff⟩
  · rw [formatM4_eq]
    exact codecDecode_packFields_of_lt n x.isLt
  · rw [formatM12_eq]
    exact codecDecode_packFields_of_lt n x.isLt
  · rw [formatM20_eq]
    exact codecDecode_packFields_of_lt n x.isLt

/-- Settles O6: DECODE undoes the packing of `code(op)`, and `opcode_of` undoes `code`. -/
theorem decodingAnEncodingGivesBackOpcodeAndMaskedOperand :
    Obligations.DecodingAnEncodingGivesBackOpcodeAndMaskedOperand := by
  intro W op x
  simpa [codecEncode] using codecDecode_packFields W op.code x []

/-- Exactly `B` bytes are one instruction with nothing after it (R105). -/
theorem decode_of_length_eq {W : Mode} {bs : List Byte} (h : bs.length = W.instrBytes) :
    decode W bs = .ok (decodeFetched W bs, []) := by
  rw [decode, if_neg h.not_lt, List.drop_of_length_le h.le]

/-- A nibble without an opcode is classified NOP and reported as unmapped (R104, R105). -/
theorem codecDecode_of_opcodeOf_eq_none {W : Mode} {bs : List Byte} (h : opcodeOf (codecDecode W bs).nib = none) :
    (codecDecode W bs).op = .nop ∧ (codecDecode W bs).mapped = false :=
  ⟨congrArg (Option.getD · Op.nop) h, congrArg Option.isSome h⟩

/-- The operand is extracted whatever the nibble is (R105). -/
theorem codecDecode_x {W : Mode} {bs : List Byte} (h : bs.length = W.instrBytes) :
    (codecDecode W bs).x = packBytes bs % 2 ^ W.width := by
  rw [codecDecode_eq W bs h]

/-- Settles O8: `B` bytes are never too short, the table's row has DECODE's fields, and an unmapped nibble changes only the
opcode and the report. -/
theorem decodeIsTotal : Obligations.DecodeIsTotal := by
  intro W bs h
  refine ⟨⟨decodeFetched W bs, decode_of_length_eq h, decide_eq_true (decodeFetched_mode W bs),
    decodeFetched_nibble W bs, decodeFetched_op W bs, decodeFetched_operand W bs⟩, fun hnib => ?_⟩
  obtain ⟨hop, hmapped⟩ := codecDecode_of_opcodeOf_eq_none (opcodeOf_eq_none_of_mem hnib)
  exact ⟨hop, hmapped, codecDecode_x h⟩

/-- Settles O9: DECODE takes the first `B` bytes, and ENCODE unpacks its number into `B` bytes. -/
theorem onlyTheFirstBytesTakePart : Obligations.OnlyTheFirstBytesTakePart := by
  refine ⟨fun W bs rest h => ?_, fun W op x => packFields_length W op.code x⟩
  rw [← codecDecode_take W (bs ++ rest), ← h, List.take_left]

end Sys2Proof
end

section
/-! SUPPORT. LDA and STA (42_load_store.md): the row a word of each format decodes to, the assembler's two forms of a mnemonic,
and the effect of the two opcodes on a machine in the instruction's own mode. Settles O14 and O15. -/

namespace Sys2Proof

/-! ### The row of the opcode table that a word of each format is (R67, R109) -/

/-- Exactly the packed bytes of a nibble and an operand that fits are the nibble's row of the table. -/
theorem decode_packFields_of_lt {W : Mode} {x : Nat} (nib : Nibble) (h : x < 2 ^ W.width) :
    decode W (packFields W nib x) = .ok (instrOf W nib x, []) := by
  rw [decode_of_length_eq (packFields_length W nib x), decodeFetched, codecDecode_packFields_of_lt nib h]

theorem decode_formatM4 (nib : Nibble) (x : BitVec 4) : decode .w4 (formatM4 nib x) = .ok (instrOfM4 nib x, []) := by
  rw [formatM4_eq, decode_packFields_of_lt nib x.isLt, Laws.instrOf_w4]

theorem decode_formatM12 (nib : Nibble) (x : BitVec 12) :
    decode .w12 (formatM12 nib x) = .ok (instrOfM12 nib x, []) := by
  rw [formatM12_eq, decode_packFields_of_lt nib x.isLt, Laws.instrOf_w12]

theorem decode_formatM20 (nib : Nibble) (x : BitVec 20) :
    decode .w20 (formatM20 nib x) = .ok (instrOfM20 nib x, []) := by
  rw [formatM20_eq, decode_packFields_of_lt nib x.isLt, Laws.instrOf_w20]

namespace Machine

/-! ### The two forms in which the assembler accepts a mnemonic -/

/-- A mnemonic of the table and a literal are an instruction with that operand (R83). -/
theorem classifyLine_mnemonic_literal {m : List Char} {op : Op} (h : (m, op) ∈ mnemonicTable) (literal : List Char)
    (n : Nat) (hn : parseLiteral literal = .ok n) : classifyLine [m, literal] = .ok (.instruction op n) :=
  classifyLine_pair (mnemonicTable_reads_back h).2 hn

/-- A mnemonic of the table alone is an instruction with operand 0 (R84). -/
theorem classifyLine_mnemonic_bare {m : List Char} {op : Op} (h : (m, op) ∈ mnemonicTable) :
    classifyLine [m] = .ok (.instruction op 0) :=
  classifyLine_bareOpcode (mnemonicTable_reads_back h).1 (mnemonicTable_reads_back h).2

/-! ### The effects -/

variable {i : Instr} {s : State}

/-- In the instruction's own mode the effective address is the operand itself (R47, R132). -/
theorem effectiveAddress_operand (hmode : s.mode = i.mode) : effectiveAddress s.mode i.operand = i.operand :=
  effectiveAddress_of_lt (hmode ▸ i.operand_lt)

/-- LDA replaces the accumulator by the byte at its operand and changes nothing else (R130). -/
theorem exec_of_lda (hop : i.op = .lda) (hmode : s.mode = i.mode) :
    exec i s = .next { s with a := s.mem.read i.operand } := by
  have hexec : exec i s = .next (s.setA (s.readOperand i.operand)) := by rw [exec_eq_effect, hop]; rfl
  rw [hexec, State.readOperand, effectiveAddress_operand hmode]
  rfl

/-- STA writes the accumulator at its operand; every other byte and the rest of the state are unchanged (R131). -/
theorem exec_of_sta (hop : i.op = .sta) (hmode : s.mode = i.mode) :
    ∃ t, exec i s = .next t ∧ t = { s with mem := t.mem } ∧ effectiveAddress s.mode i.operand = i.operand ∧
      t.mem.read (effectiveAddress s.mode i.operand) = s.a ∧
      ∀ k, k ≠ effectiveAddress s.mode i.operand → t.mem.read k = s.mem.read k := by
  have hexec : exec i s = .next (s.writeOperand i.operand s.a) := by rw [exec_eq_effect, hop]; rfl
  refine ⟨s.writeOperand i.operand s.a, hexec, rfl, effectiveAddress_operand hmode, ?_, fun k hk => ?_⟩
  · simp
  · simp [hk]

/-- Settles O15: nibble 0x4 selects the STA row of each format, `STA` is in the mnemonic table, and STA's effect is the
same law in every mode. -/
theorem staStoresTheAccumulator : Obligations.StaStoresTheAccumulator := by
  have hsta : (['S', 'T', 'A'], Op.sta) ∈ mnemonicTable := by decide
  exact ⟨decode_formatM4 0x4#4, decode_formatM12 0x4#4, decode_formatM20 0x4#4,
    classifyLine_mnemonic_literal hsta, classifyLine_mnemonic_bare hsta,
    fun _ x => exec_of_sta (i := .staM4 x) rfl, fun _ x => exec_of_sta (i := .staM12 x) rfl,
    fun _ x => exec_of_sta (i := .staM20 x) rfl⟩

/-- Settles O14: nibble 0x1 selects the LDA row of each format, `LDA` is in the mnemonic table, and LDA's effect is the
same law in every mode. -/
theorem ldaLoadsTheAddressedByte : Obligations.LdaLoadsTheAddressedByte := by
  have hlda : (['L', 'D', 'A'], Op.lda) ∈ mnemonicTable := by decide
  exact ⟨decode_formatM4 0x1#4, decode_formatM12 0x1#4, decode_formatM20 0x1#4,
    classifyLine_mnemonic_literal hlda, classifyLine_mnemonic_bare hlda,
    fun _ x => exec_of_lda (i := .ldaM4 x) rfl, fun _ x => exec_of_lda (i := .ldaM12 x) rfl,
    fun _ x => exec_of_lda (i := .ldaM20 x) rfl⟩

end Machine
end Sys2Proof
end

section
/-! SUPPORT. ADD, SUB and LDI (43_arithmetic.md): the effect of the three opcodes on a machine in the instruction's own mode,
as a law of the accumulator's unsigned value. Settles O16, O17 and O18. -/

namespace Sys2Proof.Machine

variable {i : Instr} {s : State}

/-- In the instruction's own mode the operand's byte is the one at the operand itself (R47, R132). -/
theorem readOperand_operand (hmode : s.mode = i.mode) : s.readOperand i.operand = s.mem.read i.operand := by
  rw [State.readOperand, effectiveAddress_operand hmode]

/-- An instruction whose effect is a new value of the accumulator changes nothing else (R10). -/
theorem exec_of_effect_eq_setA {v : Byte} {n : Nat} (heffect : effect i.op i.operand s = s.setA v) (hv : v.toNat = n) :
    ∃ t, exec i s = .next t ∧ t = { s with a := t.a } ∧ t.a.toNat = n :=
  ⟨s.setA v, by rw [exec_eq_effect, heffect], rfl, hv⟩

/-- ADD puts the sum modulo 256 of the accumulator and the operand's byte in the accumulator and changes nothing else (R140). -/
theorem exec_of_add (hop : i.op = .add) (hmode : s.mode = i.mode) :
    ∃ t, exec i s = .next t ∧ t = { s with a := t.a } ∧
      t.a.toNat = (s.a.toNat + (s.mem.read i.operand).toNat) % 256 := by
  apply exec_of_effect_eq_setA (v := aluAdd s.a (s.readOperand i.operand))
  · rw [hop]; rfl
  · rw [toNat_aluAdd, readOperand_operand hmode]

/-- SUB puts the accumulator less the operand's byte, modulo 256, in the accumulator and changes nothing else (R141). -/
theorem exec_of_sub (hop : i.op = .sub) (hmode : s.mode = i.mode) :
    ∃ t, exec i s = .next t ∧ t = { s with a := t.a } ∧
      t.a.toNat = (s.a.toNat + 256 - (s.mem.read i.operand).toNat) % 256 := by
  apply exec_of_effect_eq_setA (v := aluSub s.a (s.readOperand i.operand))
  · rw [hop]; rfl
  · rw [toNat_aluSub, readOperand_operand hmode]

/-- LDI puts the operand's low byte in the accumulator and changes nothing else; it reads no memory, so the mode of the
machine does not matter (R142). -/
theorem exec_of_ldi (hop : i.op = .ldi) :
    ∃ t, exec i s = .next t ∧ t = { s with a := t.a } ∧ t.a.toNat = i.operand % 256 := by
  apply exec_of_effect_eq_setA (v := immediate i.operand)
  · rw [hop]; rfl
  · exact toNat_immediate i.operand

/-- Settles O16: nibble 0x2 selects the ADD row of each format, `ADD` is in the mnemonic table, and ADD's effect is the
same law in every mode. -/
theorem addWrapsModulo256 : Obligations.AddWrapsModulo256 := by
  have hadd : (['A', 'D', 'D'], Op.add) ∈ mnemonicTable := by decide
  exact ⟨decode_formatM4 0x2#4, decode_formatM12 0x2#4, decode_formatM20 0x2#4,
    classifyLine_mnemonic_literal hadd, classifyLine_mnemonic_bare hadd,
    fun _ x => exec_of_add (i := .addM4 x) rfl, fun _ x => exec_of_add (i := .addM12 x) rfl,
    fun _ x => exec_of_add (i := .addM20 x) rfl⟩

/-- Settles O17: nibble 0x3 selects the SUB row of each format, `SUB` is in the mnemonic table, and SUB's effect is the
same law in every mode. -/
theorem subWrapsModulo256 : Obligations.SubWrapsModulo256 := by
  have hsub : (['S', 'U', 'B'], Op.sub) ∈ mnemonicTable := by decide
  exact ⟨decode_formatM4 0x3#4, decode_formatM12 0x3#4, decode_formatM20 0x3#4,
    classifyLine_mnemonic_literal hsub, classifyLine_mnemonic_bare hsub,
    fun _ x => exec_of_sub (i := .subM4 x) rfl, fun _ x => exec_of_sub (i := .subM12 x) rfl,
    fun _ x => exec_of_sub (i := .subM20 x) rfl⟩

/-- Settles O18: nibble 0x5 selects the LDI row of each format, `LDI` is in the mnemonic table, and LDI's effect is the
same law in every mode. -/
theorem ldiLoadsTheLowByteOfTheOperand : Obligations.LdiLoadsTheLowByteOfTheOperand := by
  have hldi : (['L', 'D', 'I'], Op.ldi) ∈ mnemonicTable := by decide
  exact ⟨decode_formatM4 0x5#4, decode_formatM12 0x5#4, decode_formatM20 0x5#4,
    classifyLine_mnemonic_literal hldi, classifyLine_mnemonic_bare hldi,
    fun _ x _ => exec_of_ldi (i := .ldiM4 x) rfl, fun _ x _ => exec_of_ldi (i := .ldiM12 x) rfl,
    fun _ x _ => exec_of_ldi (i := .ldiM20 x) rfl⟩

end Sys2Proof.Machine
end

section
/-! SUPPORT. JMP, NOP and the unmapped nibbles (44_control_and_system.md): a jump leaves its operand in the instruction
pointer, and whatever executes as NOP leaves the state as it is. Settles O19, O22 and O23. -/

namespace Sys2Proof

namespace Machine

variable {i : Instr} {s : State}

/-- In the instruction's own mode JMP's operand is held exactly by the instruction pointer; nothing else changes (R150). -/
theorem exec_of_jmp (hop : i.op = .jmp) (hmode : s.mode = i.mode) :
    ∃ t, exec i s = .next t ∧ t = { s with ip := t.ip } ∧ t.ip.toNat = i.operand := by
  refine ⟨s.setIp i.operand, ?_, rfl, ?_⟩
  · rw [exec_eq_effect, hop]; rfl
  · rw [State.setIp_ip, effectiveAddress_operand hmode, toNat_addr_of_lt i.operand_lt]

/-- An instruction that executes as NOP, of either origin, answers the state it is given (R154, R155). -/
theorem exec_of_nop (hop : i.op = .nop) : exec i s = .next s := by
  rw [exec_eq_effect, hop]; rfl

/-- Settles O19: nibble 0x6 selects the JMP row of each format, `JMP` is in the mnemonic table, and JMP's effect is the
same law in every mode. -/
theorem jmpOverwritesTheInstructionPointer : Obligations.JmpOverwritesTheInstructionPointer := by
  have hjmp : (['J', 'M', 'P'], Op.jmp) ∈ mnemonicTable := by decide
  exact ⟨decode_formatM4 0x6#4, decode_formatM12 0x6#4, decode_formatM20 0x6#4,
    classifyLine_mnemonic_literal hjmp, classifyLine_mnemonic_bare hjmp,
    fun _ x => exec_of_jmp (i := .jmpM4 x) rfl, fun _ x => exec_of_jmp (i := .jmpM12 x) rfl,
    fun _ x => exec_of_jmp (i := .jmpM20 x) rfl⟩

/-- Settles O22: nibble 0x0 selects the NOP row of each format, `NOP` is in the mnemonic table, and the effect of NOP is
the identity. -/
theorem nopHasNoEffect : Obligations.NopHasNoEffect := by
  have hnop : (['N', 'O', 'P'], Op.nop) ∈ mnemonicTable := by decide
  exact ⟨decode_formatM4 0x0#4, decode_formatM12 0x0#4, decode_formatM20 0x0#4,
    classifyLine_mnemonic_literal hnop, classifyLine_mnemonic_bare hnop,
    fun _ x => exec_of_nop (i := .nopM4 x) rfl, fun _ x => exec_of_nop (i := .nopM12 x) rfl,
    fun _ x => exec_of_nop (i := .nopM20 x) rfl⟩

end Machine

/-! ### The unmapped nibbles -/

/-- DECODE's report on a nibble without an opcode: NOP, not mapped, the nibble and the operand as they stand (R104, R155). -/
theorem codecDecode_packFields_of_unmapped {W : Mode} {n : Nibble} {x : Nat} (hlow : 7 ≤ n.toNat) (hhigh : n.toNat ≤ 13)
    (h : x < 2 ^ W.width) :
    codecDecode W (packFields W n x) = { op := .nop, nib := n, mapped := false, x := x } := by
  rw [codecDecode_packFields_of_lt n h, (opcodeOf_eq_none_iff n).mpr ⟨hlow, hhigh⟩]
  rfl

/-- Settles O23: each of the seven nibbles selects its own row of each format; no row has an opcode, so each executes as
NOP and DECODE reports it as unmapped. -/
theorem unmappedNibblesHaveNoEffect : Obligations.UnmappedNibblesHaveNoEffect := by
  refine ⟨decode_formatM4 0x7#4, decode_formatM12 0x7#4, decode_formatM20 0x7#4,
    decode_formatM4 0x8#4, decode_formatM12 0x8#4, decode_formatM20 0x8#4,
    decode_formatM4 0x9#4, decode_formatM12 0x9#4, decode_formatM20 0x9#4,
    decode_formatM4 0xA#4, decode_formatM12 0xA#4, decode_formatM20 0xA#4,
    decode_formatM4 0xB#4, decode_formatM12 0xB#4, decode_formatM20 0xB#4,
    decode_formatM4 0xC#4, decode_formatM12 0xC#4, decode_formatM20 0xC#4,
    decode_formatM4 0xD#4, decode_formatM12 0xD#4, decode_formatM20 0xD#4,
    ?_⟩
  iterate 21 refine ⟨fun _ _ => Machine.exec_of_nop rfl, ?_⟩
  refine ⟨fun n x hlow hhigh => ?_, fun n x hlow hhigh => ?_, fun n x hlow hhigh => ?_⟩
  · rw [formatM4_eq, codecDecode_packFields_of_unmapped hlow hhigh x.isLt]
  · rw [formatM12_eq, codecDecode_packFields_of_unmapped hlow hhigh x.isLt]
  · rw [formatM20_eq, codecDecode_packFields_of_unmapped hlow hhigh x.isLt]

end Sys2Proof
end

section
/-! SUPPORT. The decoder and the encoder of instructions undo each other, for all 48 rows (R67, R100, R109); what ENCODE makes
of a decoding (R107); the select lines (R112). Settles O1, O7, O10, O11, O12 and O13. -/

namespace Sys2Proof

/-! ### Decoding an encoding -/

/-- The decoder on packed fields answers the row that the nibble selects and leaves the bytes after them. -/
theorem decode_packFields_append {W : Mode} {x : Nat} (nib : Nibble) (hx : x < 2 ^ W.width) (rest : List Byte) :
    decode W (packFields W nib x ++ rest) = .ok (instrOf W nib x, rest) := by
  have hlen : (packFields W nib x).length = W.instrBytes := packFields_length ..
  have henough : ¬ (packFields W nib x ++ rest).length < W.instrBytes := by
    rw [List.length_append, hlen]; omega
  rw [decode, if_neg henough, List.drop_left' hlen, decodeFetched, codecDecode_packFields, Nat.mod_eq_of_lt hx]

/-- The law `TableInverse` of every row. -/
theorem Laws.TableInverse.holds : ∀ i : Instr, TableInverse.Statement i
  | .nopM4 x => nopM4 x
  | .ldaM4 x => ldaM4 x
  | .addM4 x => addM4 x
  | .subM4 x => subM4 x
  | .staM4 x => staM4 x
  | .ldiM4 x => ldiM4 x
  | .jmpM4 x => jmpM4 x
  | .unmapped7M4 x => unmapped7M4 x
  | .unmapped8M4 x => unmapped8M4 x
  | .unmapped9M4 x => unmapped9M4 x
  | .unmappedAM4 x => unmappedAM4 x
  | .unmappedBM4 x => unmappedBM4 x
  | .unmappedCM4 x => unmappedCM4 x
  | .unmappedDM4 x => unmappedDM4 x
  | .outM4 x => outM4 x
  | .hltM4 x => hltM4 x
  | .nopM12 x => nopM12 x
  | .ldaM12 x => ldaM12 x
  | .addM12 x => addM12 x
  | .subM12 x => subM12 x
  | .staM12 x => staM12 x
  | .ldiM12 x => ldiM12 x
  | .jmpM12 x => jmpM12 x
  | .unmapped7M12 x => unmapped7M12 x
  | .unmapped8M12 x => unmapped8M12 x
  | .unmapped9M12 x => unmapped9M12 x
  | .unmappedAM12 x => unmappedAM12 x
  | .unmappedBM12 x => unmappedBM12 x
  | .unmappedCM12 x => unmappedCM12 x
  | .unmappedDM12 x => unmappedDM12 x
  | .outM12 x => outM12 x
  | .hltM12 x => hltM12 x
  | .nopM20 x => nopM20 x
  | .ldaM20 x => ldaM20 x
  | .addM20 x => addM20 x
  | .subM20 x => subM20 x
  | .staM20 x => staM20 x
  | .ldiM20 x => ldiM20 x
  | .jmpM20 x => jmpM20 x
  | .unmapped7M20 x => unmapped7M20 x
  | .unmapped8M20 x => unmapped8M20 x
  | .unmapped9M20 x => unmapped9M20 x
  | .unmappedAM20 x => unmappedAM20 x
  | .unmappedBM20 x => unmappedBM20 x
  | .unmappedCM20 x => unmappedCM20 x
  | .unmappedDM20 x => unmappedDM20 x
  | .outM20 x => outM20 x
  | .hltM20 x => hltM20 x

/-- Every instruction has the `B` bytes of its format (R60). -/
theorem encode_length (i : Instr) : (encode i).length = i.mode.instrBytes := packFields_length ..

/-- Settles O11: the decoder reads the packed fields back, and the fields of an instruction select its own row. -/
theorem decodeUndoesEncode : Obligations.DecodeUndoesEncode := by
  intro W i rest hwf
  obtain rfl : i.mode = W := of_decide_eq_true hwf
  refine ⟨?_, encode_length i⟩
  rw [encode, decode_packFields_append i.nibble i.operand_lt, Laws.TableInverse.holds i]

/-! ### Encoding a decoding -/

/-- DECODE's nibble and operand, packed again, are the bytes: the format has no padding bits (R62). -/
theorem packFields_codecDecode {W : Mode} {bs : List Byte} (h : bs.length = W.instrBytes) :
    packFields W (codecDecode W bs).nib (codecDecode W bs).x = bs := by
  have hnib : packBytes bs / 2 ^ W.width < 2 ^ 4 := by
    apply Nat.div_lt_of_lt_mul
    rw [← pow_add, ← W.instrBits, ← h]
    exact packBytes_lt bs
  apply packBytes_injective
  · rw [packFields_length, h]
  · rw [packFields_number, codecDecode_eq W bs h]
    simp only [BitVec.toNat_ofNat, Nat.mod_eq_of_lt hnib, Nat.mod_mod]
    exact Nat.div_add_mod' ..

/-- The words of the instruction that a fetch decodes to are the fetched bytes. -/
theorem encode_decodeFetched {W : Mode} {bs : List Byte} (h : bs.length = W.instrBytes) :
    encode (decodeFetched W bs) = bs := by
  rw [encode, decodeFetched_mode, decodeFetched_nibble, decodeFetched_operand, packFields_codecDecode h]

theorem decodeFetched_take (W : Mode) (bs : List Byte) :
    decodeFetched W (bs.take W.instrBytes) = decodeFetched W bs := by
  rw [decodeFetched, codecDecode_take, decodeFetched]

/-- The decoder over lists rejects what is shorter than an instruction and nothing else (log 17). -/
theorem decode_eq_error_iff (W : Mode) (bs : List Byte) :
    decode W bs = .error .tooShort ↔ bs.length < W.instrBytes := by
  simp [decode]

/-- Settles O12: the decoder reads the first `B` bytes, which the encoder gives back, and leaves the others. -/
theorem encodeUndoesDecode : Obligations.EncodeUndoesDecode := by
  refine ⟨fun W bs i rest h => ?_, decode_eq_error_iff⟩
  obtain ⟨henough, rfl, rfl⟩ := decode_eq_ok h
  refine ⟨decide_eq_true (decodeFetched_mode W bs), ?_⟩
  rw [← decodeFetched_take, encode_decodeFetched (List.length_take_of_le henough), List.take_append_drop]

/-- A mapped nibble is the code of the opcode DECODE answers (R104, R108). -/
theorem code_codecDecode_op {W : Mode} {bs : List Byte} (h : (codecDecode W bs).mapped = true) :
    (codecDecode W bs).op.code = (codecDecode W bs).nib := by
  obtain ⟨op, (hop : opcodeOf (codecDecode W bs).nib = some op)⟩ := Option.isSome_iff_exists.mp h
  have hanswer : (codecDecode W bs).op = op := congrArg (Option.getD · Op.nop) hop
  rw [hanswer, opcodeOf_eq_some hop]

/-- A nibble reported as unmapped names no opcode, so DECODE answers NOP (R105). -/
theorem codecDecode_op_of_unmapped {W : Mode} {bs : List Byte} (h : (codecDecode W bs).mapped = false) :
    (codecDecode W bs).op = .nop :=
  (codecDecode_of_opcodeOf_eq_none (Option.isNone_iff_eq_none.mp (Option.isSome_eq_false_iff.mp h))).1

/-- Settles O7: with a mapped nibble ENCODE packs the decoded fields; with an unmapped one it packs nibble 0, which is mapped,
so its bytes are others. -/
theorem encodingADecodingRestoresMappedBytesOnly : Obligations.EncodingADecodingRestoresMappedBytesOnly := by
  intro W bs h
  refine ⟨fun hmapped => ?_, fun hunmapped => ⟨?_, fun heq => ?_⟩⟩
  · rw [codecEncode, code_codecDecode_op hmapped, packFields_codecDecode h]
  · rw [codecEncode, packFields_number, codecDecode_op_of_unmapped hunmapped, codecDecode_x h]
    simp [Op.code]
  · have hmapped := congrArg Decoded.mapped
      (decodingAnEncodingGivesBackOpcodeAndMaskedOperand W (codecDecode W bs).op (codecDecode W bs).x)
    rw [heq, hunmapped] at hmapped
    cases hmapped

/-! ### The select lines -/

/-- Among the nine lines only the one of the decoded opcode is 1 (R112). -/
theorem select_oneHot (d : Decoded) :
    ([d.select.selNop, d.select.selLda, d.select.selAdd, d.select.selSub, d.select.selSta, d.select.selLdi,
      d.select.selJmp, d.select.selOut, d.select.selHlt].filter id).length = 1 := by
  obtain ⟨op, _, _, _⟩ := d
  cases op <;> rfl

/-- With a mapped nibble the line of an opcode is 1 exactly for its code (R108, R112). -/
theorem codecDecode_op_beq_iff {W : Mode} {bs : List Byte} (h : (codecDecode W bs).mapped = true) (op : Op) :
    ((codecDecode W bs).op == op) = true ↔ (codecDecode W bs).nib = op.code := by
  rw [beq_iff_eq, ← code_codecDecode_op h]
  refine ⟨congrArg Op.code, fun hcode => ?_⟩
  simpa using congrArg opcodeOf hcode

/-- The NOP line is 1 for nibble 0 and for every unmapped nibble (R112). -/
theorem codecDecode_op_beq_nop_iff (W : Mode) (bs : List Byte) :
    ((codecDecode W bs).op == .nop) = true ↔ (codecDecode W bs).nib = 0x0#4 ∨ (codecDecode W bs).mapped = false := by
  cases h : (codecDecode W bs).mapped
  · simp [codecDecode_op_of_unmapped h]
  · simpa [Op.code] using codecDecode_op_beq_iff h .nop

/-- Settles O10: each line compares the decoded opcode with its own. -/
theorem exactlyOneSelectLineIsAsserted : Obligations.ExactlyOneSelectLineIsAsserted := by
  intro W bs
  refine ⟨select_oneHot _, codecDecode_op_beq_nop_iff W bs, fun h => ?_⟩
  have hline := codecDecode_op_beq_iff h
  exact ⟨hline .lda, hline .add, hline .sub, hline .sta, hline .ldi, hline .jmp, hline .out, hline .hlt⟩

/-! ### Widths and sample words -/

/-- Settles O1: the three rows of R21, and the absence of padding bits. -/
theorem modeFixesWidthAndMemorySize : Obligations.ModeFixesWidthAndMemorySize :=
  ⟨⟨rfl, rfl, rfl⟩, ⟨rfl, rfl, rfl⟩, ⟨rfl, rfl, rfl⟩, fun W => ⟨rfl, rfl, W.fieldBits⟩, encode_length⟩

/-- Settles O13: each word is a nibble and an operand of its format table. -/
theorem sampleWordsDecodeAsTheSpecEncodesThem : Obligations.SampleWordsDecodeAsTheSpecEncodesThem :=
  ⟨decode_formatM4 0x1#4 0xA#4, decode_formatM4 0x7#4 0xA#4, decode_formatM12 0x6#4 0xCDE#12,
    decode_formatM12 0x2#4 0x00A#12, decode_formatM12 0xE#4 0x000#12, decode_formatM20 0x4#4 0xFFFFF#20,
    decode_formatM20 0x5#4 0x001FF#20⟩

end Sys2Proof
end

section
/-! SUPPORT. What a step of any machine does and leaves unchanged (R20 to R33, R121 to R127, R151): the invariant, the sequencer's
pseudocode, the writers of each piece of state, the output port, and OUT and HLT. Settles O20, O21 and O26 to O34. -/

namespace Sys2Proof.Machine

/-! ### OUT and HLT -/

/-- OUT appends the accumulator to the trace and changes nothing else (R152). -/
theorem exec_of_out {i : Instr} (hop : i.op = .out) (s : State) : exec i s = .next s.emit := by
  rw [exec_eq_effect, hop]; rfl

/-- HLT sets `HALTED` and changes nothing else (R153). -/
theorem exec_of_hlt {i : Instr} (hop : i.op = .hlt) (s : State) : exec i s = .next s.halt := by
  rw [exec_eq_effect, hop]; rfl

/-- With `HALTED = 1` there is no step (R127). -/
theorem step_of_halted {s : State} (h : s.halted = true) : step s = .fault .halted := by
  rw [step, if_pos h]; rfl

/-- Settles O20: nibble 0xE selects the OUT row of each format, `OUT` is in the mnemonic table, and OUT's effect is the
same law in every state. -/
theorem outAppendsTheAccumulatorToTheTrace : Obligations.OutAppendsTheAccumulatorToTheTrace := by
  have hout : (['O', 'U', 'T'], Op.out) ∈ mnemonicTable := by decide
  exact ⟨decode_formatM4 0xE#4, decode_formatM12 0xE#4, decode_formatM20 0xE#4,
    classifyLine_mnemonic_literal hout, classifyLine_mnemonic_bare hout,
    fun s x => exec_of_out (i := .outM4 x) rfl s, fun s x => exec_of_out (i := .outM12 x) rfl s,
    fun s x => exec_of_out (i := .outM20 x) rfl s⟩

/-- Settles O21: nibble 0xF selects the HLT row of each format, `HLT` is in the mnemonic table, HLT's effect is the same law
in every state, and the state it leaves has no step. -/
theorem hltSetsHaltedAndNothingElse : Obligations.HltSetsHaltedAndNothingElse := by
  have hhlt : (['H', 'L', 'T'], Op.hlt) ∈ mnemonicTable := by decide
  exact ⟨decode_formatM4 0xF#4, decode_formatM12 0xF#4, decode_formatM20 0xF#4,
    classifyLine_mnemonic_literal hhlt, classifyLine_mnemonic_bare hhlt,
    fun s x => ⟨exec_of_hlt (i := .hltM4 x) rfl s, step_of_halted rfl⟩,
    fun s x => ⟨exec_of_hlt (i := .hltM12 x) rfl s, step_of_halted rfl⟩,
    fun s x => ⟨exec_of_hlt (i := .hltM20 x) rfl s, step_of_halted rfl⟩⟩

/-! ### Totality, and the end of a machine's steps -/

/-- A step of a running machine is the meaning of the fetched instruction on the advanced state (R121). -/
theorem step_eq_exec {s : State} (h : s.halted = false) : step s = exec s.fetchInstr s.advance := by
  rw [step_of_running h, exec_eq_effect]

/-- Settles O28: both a running machine's step and an instruction answer the next state that the effect gives. -/
theorem everyRunningStateHasExactlyOneSuccessor : Obligations.EveryRunningStateHasExactlyOneSuccessor := by
  refine ⟨fun s h => ?_, fun i s => ⟨_, exec_eq_effect i s⟩⟩
  rw [step_of_running h]
  exact ⟨_, rfl, fun u hu => (Host.Outcome.next.inj hu).symm, nofun, nofun⟩

/-- A run of a halted machine stays where it is (R127, R128). -/
theorem run_of_halted {s : State} (h : s.halted = true) (n : Nat) : run n s = s := by
  cases n with
  | zero => rfl
  | succ n => rw [run, step_of_halted h]

/-- Settles O29: a running machine answers a next state, so only a halted one has no step. -/
theorem haltedMeansNoStep : Obligations.HaltedMeansNoStep := by
  refine fun s => ⟨⟨step_of_halted, fun hstep => ?_⟩, fun h n => run_of_halted h n⟩
  rcases step_cases s with ⟨h, -⟩ | ⟨-, hnext⟩
  · exact h
  · rw [hnext] at hstep; cases hstep

/-! ### The invariant -/

/-- The state that load-and-reset leaves meets the invariant when the image does: `IP` is 0 (R180). -/
theorem start_inv {W : Mode} {m : Memory} (hwf : m.wf = true) (hinside : m.inside W) : (State.start W m).Inv :=
  ⟨hwf, hinside, W.memSize_pos⟩

/-- Settles O31: the image of a reset with no block loaded lists nothing. -/
theorem resetSatisfiesTheInvariant : Obligations.ResetSatisfiesTheInvariant :=
  ⟨start_inv rfl nofun, fun _ => start_inv rfl nofun⟩

/-- The advanced pointer, as a number (R124; the wrap is D1). -/
theorem toNat_advance_ip (s : State) :
    s.advance.ip.toNat = (s.ip.toNat + s.mode.instrBytes) % s.mode.memSize :=
  toNat_addr_of_lt (Nat.mod_lt _ s.mode.memSize_pos)

/-- Advancing keeps the invariant, whatever the pointer was. -/
theorem advance_inv {s : State} (h : s.Inv) : s.advance.Inv := by
  obtain ⟨hwf, hinside, -⟩ := h
  exact ⟨hwf, hinside, (toNat_advance_ip s).trans_lt (Nat.mod_lt _ s.mode.memSize_pos)⟩

/-- Every opcode's effect keeps the invariant: STA writes inside the image in canonical form, JMP's target is an address of
the image, and no other opcode touches memory or the pointer. -/
theorem effect_inv {s : State} (h : s.Inv) (op : Op) (x : Nat) : (effect op x s).Inv := by
  obtain ⟨hwf, hinside, hip⟩ := h
  have haddr := effectiveAddress_lt s.mode x
  cases op with
  | sta => exact ⟨Memory.wf_write hwf, Memory.inside_write hinside haddr, hip⟩
  | jmp => exact ⟨hwf, hinside, (toNat_addr_of_lt haddr).trans_lt haddr⟩
  | nop | lda | add | sub | ldi | out | hlt => exact ⟨hwf, hinside, hip⟩

/-- Settles O30: a step is an effect on the advanced state. -/
theorem stepKeepsTheInvariant : Obligations.StepKeepsTheInvariant := by
  intro s t h hstep
  obtain ⟨-, rfl⟩ := step_eq_next hstep
  exact effect_inv (advance_inv h) _ _

/-! ### The sequencer's pseudocode -/

/-- The opcode a step runs is DECODE's answer on the fetched bytes (R109, R123). -/
theorem fetchInstr_op (s : State) : s.fetchInstr.op = (codecDecode s.mode s.fetch).op := decodeFetched_op ..

/-- The operand a step uses is the one DECODE extracts (R109, R123). -/
theorem fetchInstr_operand (s : State) : s.fetchInstr.operand = (codecDecode s.mode s.fetch).x := decodeFetched_operand ..

/-- Settles O26: the listed bytes are the fetch, which the decoder and the engine read alike. -/
theorem stepRunsTheDecodedInstruction : Obligations.StepRunsTheDecodedInstruction := by
  intro s i h hdecode
  obtain ⟨-, rfl, -⟩ := decode_eq_ok hdecode
  exact step_eq_exec h

/-- The accumulator after an opcode's effect, as an unsigned number, for an operand that is an address of the image
(R130, R140, R141, R142). -/
theorem toNat_effect_a {s : State} {x : Nat} (hx : x < s.mode.memSize) (op : Op) :
    (effect op x s).a.toNat =
      match op with
      | .lda => (s.mem.read x).toNat
      | .add => (s.a.toNat + (s.mem.read x).toNat) % 256
      | .sub => (s.a.toNat + 256 - (s.mem.read x).toNat) % 256
      | .ldi => x % 256
      | .sta | .jmp | .out | .hlt | .nop => s.a.toNat := by
  have hread : s.readOperand x = s.mem.read x := by rw [State.readOperand, effectiveAddress_of_lt hx]
  cases op with
  | lda => exact congrArg BitVec.toNat hread
  | add => rw [← hread]; exact toNat_aluAdd ..
  | sub => rw [← hread]; exact toNat_aluSub ..
  | ldi => exact toNat_immediate x
  | sta | jmp | out | hlt | nop => rfl

/-- Memory after an opcode's effect: STA's byte at its operand, every other byte unchanged (R131). -/
theorem read_effect_mem {s : State} {x : Nat} (hx : x < s.mode.memSize) (op : Op) (k : Nat) :
    (effect op x s).mem.read k = if op = .sta ∧ k = x then s.a else s.mem.read k := by
  rw [effect_mem, effectiveAddress_of_lt hx]
  by_cases hop : op = .sta <;> simp [hop]

/-- The pointer after a step's effect: the target of JMP, otherwise the advanced one (R124, R150, R151). -/
theorem toNat_effect_advance_ip {s : State} {x : Nat} (hx : x < s.mode.memSize) (op : Op) :
    (effect op x s.advance).ip.toNat =
      if op = .jmp then x else (s.ip.toNat + s.mode.instrBytes) % s.mode.memSize := by
  rw [effect_ip, State.advance_mode, effectiveAddress_of_lt hx]
  split
  · exact toNat_addr_of_lt hx
  · exact toNat_advance_ip s

/-- A step's effect halts the machine exactly when it is HLT's (R153). -/
theorem effect_halted_of_running {s : State} (h : s.halted = false) (op : Op) (x : Nat) :
    (effect op x s).halted = decide (op = .hlt) := by
  rw [effect_halted, h]
  by_cases hop : op = .hlt <;> simp [hop]

/-- Settles O27: the step is the effect of DECODE's opcode for DECODE's operand, whose six items of state are known. -/
theorem stepFollowsTheSequencerPseudocode : Obligations.StepFollowsTheSequencerPseudocode := by
  intro s _ h
  have hx : (codecDecode s.mode s.fetch).x < s.mode.memSize := codecDecode_x_lt ..
  have hstep := step_of_running h
  rw [fetchInstr_op, fetchInstr_operand] at hstep
  exact ⟨_, hstep, effect_mode .., toNat_effect_advance_ip hx _, toNat_effect_a (s := s.advance) hx _,
    read_effect_mem (s := s.advance) hx _, effect_out .., effect_halted_of_running (s := s.advance) h ..⟩

/-! ### One writer for each piece of state -/

/-- Settles O32: a step is an effect on the advanced state, and each clause is the law of one item of state. -/
theorem eachPieceOfStateHasOneWriter : Obligations.EachPieceOfStateHasOneWriter := by
  intro s t hstep
  obtain ⟨hrunning, rfl⟩ := step_eq_next hstep
  have hip := toNat_effect_advance_ip (fetchInstr_operand_lt s) s.fetchInstr.op
  have hhalted := effect_halted_of_running (s := s.advance) hrunning s.fetchInstr.op s.fetchInstr.operand
  refine ⟨effect_mode .., effect_a_of_not_writer _ _, fun hop => ?_, fun hop => ?_, fun hop => ?_, fun hop => ?_,
    fun hop => ?_, fun hop => ?_⟩
  · rw [effect_mem, if_neg hop, State.advance_mem]
  · rw [effect_out, if_neg hop, State.advance_out]
  · rw [hhalted, decide_eq_false hop]
  · rw [hhalted, decide_eq_true hop]
  · rw [hip, if_neg hop]; rfl
  · rw [hip, if_pos hop]

/-! ### The output port -/

/-- The port carries the accumulator during an OUT of a running machine and nothing otherwise (R157). -/
theorem outPort_eq_some_iff (s : State) (v : Byte) :
    outPort s = some v ↔ s.halted = false ∧ s.fetchInstr.op = .out ∧ v = s.a := by
  cases h : s.halted <;> simp [outPort, h, eq_comm]

/-- A step appends what the port carries (R152, R157). -/
theorem step_out {s t : State} (hstep : step s = .next t) : t.out = s.out ++ (outPort s).toList := by
  obtain ⟨hrunning, rfl⟩ := step_eq_next hstep
  rw [effect_out]
  by_cases hop : s.fetchInstr.op = .out <;> simp [outPort, hrunning, hop]

/-- The port carries at most one value (R157). -/
theorem outPort_toList_length_le (s : State) : (outPort s).toList.length ≤ 1 := by
  cases outPort s <;> simp

/-- The trace grows by at most one value for each step of a run. -/
theorem run_out (n : Nat) (s : State) : ∃ emitted, (run n s).out = s.out ++ emitted ∧ emitted.length ≤ n := by
  induction n generalizing s with
  | zero => exact ⟨[], by simp [run]⟩
  | succ n ih =>
    cases h : s.halted with
    | true => exact ⟨[], by simp [run_of_halted h]⟩
    | false =>
      have hstep := step_of_running h
      obtain ⟨later, hout, hlen⟩ := ih (effect s.fetchInstr.op s.fetchInstr.operand s.advance)
      have hport := outPort_toList_length_le s
      refine ⟨(outPort s).toList ++ later, ?_, ?_⟩
      · rw [run_succ_of_next hstep, hout, step_out hstep, List.append_assoc]
      · rw [List.length_append]; omega

/-- Settles O33: the port's law, what a step appends, and what a run appends. -/
theorem outputPortMatchesTheTrace : Obligations.OutputPortMatchesTheTrace :=
  ⟨fun _ _ => step_out, outPort_eq_some_iff, run_out⟩

/-! ### A store and the fetch after it -/

/-- Settles O34: every byte of the next fetch is a read of the memory that STA's effect left (R52). -/
theorem aStoreIsSeenByTheNextFetch : Obligations.AStoreIsSeenByTheNextFetch := by
  intro s t hsta hstep
  obtain ⟨-, ht⟩ := step_eq_next hstep
  have hmode : t.mode = s.mode := by rw [ht, effect_mode, State.advance_mode]
  have hread (k : Nat) : t.mem.read k = if k = s.fetchInstr.operand then s.a else s.mem.read k := by
    rw [ht, read_effect_mem (s := s.advance) (fetchInstr_operand_lt s)]
    simp [hsta]
  simp only [State.fetch, State.fetchAddress, hmode, hread]
  rfl

end Sys2Proof.Machine
end

section
/-! SUPPORT. Laws of a bounded run (R120, R128, R129): it composes, ends only by HLT, and over zero memory only advances. Settles
O35 and O36. -/

namespace Sys2Proof.Machine

/-! ### How a run ends -/

/-- Runs compose (R128). -/
theorem run_add (m n : Nat) (s : State) : run (m + n) s = run n (run m s) := by
  induction m generalizing s with
  | zero => rw [Nat.zero_add, run]
  | succ m ih =>
    rw [Nat.succ_add]
    cases h : s.halted with
    | true => rw [run_of_halted h, run_of_halted h, run_of_halted h]
    | false =>
      have hstep := step_of_running h
      rw [run_succ_of_next hstep, run_succ_of_next hstep, ih]

/-- No state stops a run other than by `HALTED = 1` (R120, R126). -/
theorem safeRun (n : Nat) (s : State) : SafeRun n s := by
  induction n generalizing s with
  | zero => trivial
  | succ n ih =>
    cases h : s.halted with
    | true => exact .inl h
    | false => exact .inr ⟨_, step_of_running h, ih _⟩

/-- A step that halts the machine executed a HLT (R31, R153). -/
theorem fetchInstr_op_of_step_halted {s t : State} (hstep : step s = .next t) (ht : t.halted = true) :
    s.fetchInstr.op = .hlt := by
  obtain ⟨hrunning, rfl⟩ := step_eq_next hstep
  rw [effect_halted_of_running (s := s.advance) hrunning] at ht
  exact of_decide_eq_true ht

/-- A run that has halted passed through a state whose HLT gave the final state. -/
theorem exists_hlt_of_run_halted {n : Nat} {s : State} (hs : s.halted = false) (hn : (run n s).halted = true) :
    ∃ k, k < n ∧ (run k s).halted = false ∧ (run k s).fetchInstr.op = .hlt ∧ step (run k s) = .next (run n s) := by
  induction n generalizing s with
  | zero => rw [run, hs] at hn; cases hn
  | succ n ih =>
    obtain ⟨t, hstep⟩ : ∃ t, step s = .next t := ⟨_, step_of_running hs⟩
    rw [run_succ_of_next hstep] at hn ⊢
    cases ht : t.halted with
    | true =>
      refine ⟨0, Nat.succ_pos n, hs, fetchInstr_op_of_step_halted hstep ht, ?_⟩
      rw [run_of_halted ht]; exact hstep
    | false =>
      obtain ⟨k, hk, hlater⟩ := ih ht hn
      refine ⟨k + 1, Nat.succ_lt_succ hk, ?_⟩
      rwa [run_succ_of_next hstep]

/-- Settles O35: the three laws above. -/
theorem aRunStopsOnlyByHlt : Obligations.ARunStopsOnlyByHlt :=
  ⟨safeRun, fun _ _ => exists_hlt_of_run_halted, run_add⟩

/-! ### Zero memory -/

/-- A fetch from memory that lists nothing is `B` zero bytes, wherever the pointer is (R30). -/
theorem fetch_of_mem_nil {s : State} (h : s.mem = []) : s.fetch = List.replicate s.mode.instrBytes 0x00#8 := by
  simp [State.fetch, h, List.map_const', Config.unlistedByte]

/-- Zero bytes are a NOP in every mode (R154). -/
theorem fetchInstr_op_of_mem_nil {s : State} (h : s.mem = []) : s.fetchInstr.op = .nop := by
  have hzero (W : Mode) : (codecDecode W (List.replicate W.instrBytes 0x00#8)).op = .nop := by cases W <;> rfl
  rw [fetchInstr_op, fetch_of_mem_nil h, hzero]

/-- A step over zero memory is the advance alone. -/
theorem step_of_mem_nil {s : State} (hmem : s.mem = []) (h : s.halted = false) : step s = .next s.advance := by
  rw [step_of_running h, fetchInstr_op_of_mem_nil hmem]; rfl

/-- A run over zero memory changes nothing but `IP`, which advances by `B` a step (R129; the wrap is D1). -/
theorem run_of_mem_nil (n : Nat) {s : State} (hmem : s.mem = []) (h : s.halted = false)
    (hip : s.ip.toNat < s.mode.memSize) :
    run n s = { s with ip := (run n s).ip } ∧
      (run n s).ip.toNat = (s.ip.toNat + n * s.mode.instrBytes) % s.mode.memSize := by
  induction n generalizing s with
  | zero => exact ⟨rfl, by rw [run, Nat.zero_mul, Nat.add_zero, Nat.mod_eq_of_lt hip]⟩
  | succ n ih =>
    have hadvance : s.advance.ip.toNat < s.advance.mode.memSize :=
      (toNat_advance_ip s).trans_lt (Nat.mod_lt _ s.mode.memSize_pos)
    obtain ⟨hrest, hlater⟩ := ih (s := s.advance) hmem h hadvance
    rw [run_succ_of_next (step_of_mem_nil hmem h)]
    refine ⟨hrest, ?_⟩
    rw [hlater, toNat_advance_ip, State.advance_mode, Nat.mod_add_mod, Nat.succ_mul]
    congr 1
    omega

/-- Settles O36. -/
theorem zeroMemoryIsARunOfNops : Obligations.ZeroMemoryIsARunOfNops := fun n _ => run_of_mem_nil n

end Sys2Proof.Machine
end

section
/-! SUPPORT. Placing a word of the opcode table where the step fetches (log 8): the placed bytes are what the next fetch reads.
Settles O37. -/

namespace Sys2Proof.Machine

/-- The write of one byte of a placed word, `c.2` bytes after `k`, with the fetch's wrap. -/
def writeWrapped (W : Mode) (k : Nat) (m : Memory) (c : Byte × Nat) : Memory := m.write ((k + c.2) % W.memSize) c.1

theorem State.placeWord_mem (s : State) (W : Mode) (w : Nat) :
    (s.placeWord W w).mem =
      (unpackBytes W.instrBytes w).zipIdx.foldl (writeWrapped W (s.ip.toNat % W.memSize))
        (s.mem.filter fun c => decide (c.1 < W.memSize)) := rfl

/-- Offsets below the size of memory stay apart when an address is added modulo that size. -/
theorem wrapped_inj {W : Mode} {k i j : Nat} (hi : i < W.memSize) (hj : j < W.memSize)
    (h : (k + i) % W.memSize = (k + j) % W.memSize) : i = j :=
  (Nat.ModEq.add_left_cancel' k h).eq_of_lt_of_lt hi hj

/-- Bytes placed at later offsets leave an earlier offset's byte as it is. -/
theorem read_placed_of_lt {W : Mode} {k n j : Nat} (bs : List Byte) (m : Memory) (hj : j < n)
    (hn : n + bs.length ≤ W.memSize) :
    ((bs.zipIdx n).foldl (writeWrapped W k) m).read ((k + j) % W.memSize) = m.read ((k + j) % W.memSize) := by
  induction bs generalizing m n with
  | nil => rfl
  | cons b bs ih =>
    rw [List.length_cons] at hn
    have hne : (k + j) % W.memSize ≠ (k + n) % W.memSize := fun h => by
      have := wrapped_inj (by omega) (by omega) h
      omega
    rw [List.zipIdx_cons, List.foldl_cons, ih _ (by omega) (by omega), writeWrapped, Memory.read_write, if_neg hne]

/-- Each placed byte is read back at its offset. -/
theorem read_placed {W : Mode} {k n j : Nat} (bs : List Byte) (m : Memory) (hj : j < bs.length)
    (hn : n + bs.length ≤ W.memSize) :
    ((bs.zipIdx n).foldl (writeWrapped W k) m).read ((k + (n + j)) % W.memSize) = bs[j] := by
  induction bs generalizing m n j with
  | nil => cases hj
  | cons b bs ih =>
    rw [List.length_cons] at hn hj
    rw [List.zipIdx_cons, List.foldl_cons]
    cases j with
    | zero =>
      rw [Nat.add_zero n, read_placed_of_lt bs _ (Nat.lt_add_one n) (by omega), writeWrapped]
      simp
    | succ j =>
      have hoffset : n + (j + 1) = n + 1 + j := by omega
      rw [hoffset, ih _ (by omega) (by omega), List.getElem_cons_succ]

theorem instrBytes_le_memSize (W : Mode) : W.instrBytes ≤ W.memSize := by cases W <;> decide

/-- The fetch of the next step reads the placed bytes in order, wherever the pointer stood. -/
theorem fetch_placeWord (s : State) (W : Mode) (w : Nat) :
    (s.placeWord W w).fetch = unpackBytes W.instrBytes w := by
  have hk : s.ip.toNat % W.memSize < W.memSize := Nat.mod_lt _ W.memSize_pos
  have hlen := unpackBytes_length W.instrBytes w
  apply List.ext_getElem
  · rw [fetch_length, hlen]; rfl
  · intro j _ hj
    have hip : (s.placeWord W w).ip.toNat = s.ip.toNat % W.memSize := toNat_addr_of_lt hk
    have hmode : (s.placeWord W w).mode = W := rfl
    have hplaced := read_placed (k := s.ip.toNat % W.memSize) (n := 0) (unpackBytes W.instrBytes w)
      (s.mem.filter fun c => decide (c.1 < W.memSize)) hj (by rw [hlen, Nat.zero_add]; exact instrBytes_le_memSize W)
    rw [Nat.zero_add] at hplaced
    simp only [State.fetch, State.fetchAddress, List.getElem_map, List.getElem_range, hip, hmode,
      State.placeWord_mem, hplaced]

/-- The table's word of a mode is the instruction that its bytes decode to (R67). -/
theorem decodeTableWord_instrBits (W : Mode) (w : Nat) :
    decodeTableWord (8 * W.instrBytes) w = some (decodeFetched W (unpackBytes W.instrBytes w)) := by
  simp only [decodeTableWord, Mode.ofBits_instrBits, decode_of_length_eq (unpackBytes_length W.instrBytes w)]

theorem State.withFetchWord_instrBits (s : State) (W : Mode) (w : Nat) :
    s.withFetchWord (8 * W.instrBytes) w = s.placeWord W w := by
  simp only [State.withFetchWord, Mode.ofBits_instrBits]

/-- Settles O37: the bytes of the word decode to one instruction, whose words they are, and the next fetch reads them. -/
theorem aPlacedWordRunsNext : Obligations.APlacedWordRunsNext := by
  intro s W w hw
  have hlen := unpackBytes_length W.instrBytes w
  have hfetch : (s.placeWord W w).fetchInstr = decodeFetched W (unpackBytes W.instrBytes w) := by
    rw [State.fetchInstr, fetch_placeWord]; rfl
  refine ⟨_, decodeTableWord_instrBits W w, decide_eq_true (decodeFetched_mode ..), ?_, ?_⟩
  · rw [encode_decodeFetched hlen, packBytes_unpackBytes, Nat.mod_eq_of_lt hw]
  · rw [State.withFetchWord_instrBits]
    refine ⟨hfetch, ?_⟩
    rw [step_eq_exec rfl, hfetch]

end Sys2Proof.Machine
end

section
/-! SUPPORT. The loader (R184 to R192) on what the writer makes and on what it does not: the image of records that fit, the range
check, a cut inside a record, the header checks, and load-and-reset (R180). Settles O38 to O42 and O47. -/

namespace Sys2Proof.Machine

/-! ### Rounds of the loader -/

theorem loadRecords_nil (W : Mode) (fuel : Nat) (m : Memory) : loadRecords W fuel m [] = .ok m := by
  cases fuel <;> rfl

/-- The two fields of a record are eight bytes. -/
theorem bigEndian32_cons (n : Nat) : ∃ a b c d, bigEndian32 n = [a, b, c, d] := ⟨_, _, _, _, rfl⟩

/-- One round on the fields of a record and whatever follows: the range check comes before the payload is read (R188, R189). -/
theorem loadRecords_fields (W : Mode) (fuel : Nat) (m : Memory) {addr len : Nat} (haddr : addr < 2 ^ 32)
    (hlen : len < 2 ^ 32) (rest : List Byte) :
    loadRecords W (fuel + 1) m (bigEndian32 addr ++ bigEndian32 len ++ rest) =
      if addr + len > W.memSize then .error .memoryRangeError
      else if rest.length < len then .error .ioError
      else loadRecords W fuel (m.writeBytes addr (rest.take len)) (rest.drop len) := by
  have ha := packBytes_bigEndian32 haddr
  have hl := packBytes_bigEndian32 hlen
  obtain ⟨a₀, a₁, a₂, a₃, eaddr⟩ := bigEndian32_cons addr
  obtain ⟨l₀, l₁, l₂, l₃, elen⟩ := bigEndian32_cons len
  rw [eaddr] at ha ⊢
  rw [elen] at hl ⊢
  simp [loadRecords, ha, hl]

/-- Fewer bytes than the two fields are a partial record (R190). -/
theorem loadRecords_short {stream : List Byte} (W : Mode) (fuel : Nat) (m : Memory) (hpos : 0 < stream.length)
    (h : stream.length < 8) : loadRecords W fuel m stream = .error .ioError := by
  cases stream with
  | nil => cases hpos
  | cons b bs =>
    cases fuel with
    | zero => rfl
    | succ fuel => rw [loadRecords]; exact if_pos h

/-- The fields of a record of the image fit the four bytes each has (R186). -/
theorem fields_lt_of_fits {W : Mode} {r : Record} (h : r.addr + r.payload.length ≤ W.memSize) :
    r.addr < 2 ^ 32 ∧ r.payload.length < 2 ^ 32 := by
  have := h.trans W.memSize_le
  omega

/-! ### Records that fit -/

/-- The copy of one record's payload (R188). -/
def writeRecord (m : Memory) (r : Record) : Memory := m.writeBytes r.addr r.payload

/-- The loader copies written records that fit, one a round, and goes on with what follows them. -/
theorem loadRecords_flatMap {W : Mode} {rs : List Record} (hfit : ∀ r ∈ rs, r.addr + r.payload.length ≤ W.memSize)
    (fuel : Nat) (m : Memory) (tail : List Byte) :
    loadRecords W (rs.length + fuel) m (rs.flatMap recordBytes ++ tail) =
      loadRecords W fuel (rs.foldl writeRecord m) tail := by
  induction rs generalizing m with
  | nil => rw [List.length_nil, Nat.zero_add]; rfl
  | cons r rs ih =>
    simp only [List.mem_cons, forall_eq_or_imp] at hfit
    obtain ⟨hr, hrs⟩ := hfit
    obtain ⟨haddr, hlen⟩ := fields_lt_of_fits hr
    rw [List.length_cons, Nat.succ_add, List.flatMap_cons, List.append_assoc,
      loadRecords_recordBytes W _ m r _ haddr hlen, if_neg (Nat.not_lt.mpr hr), ih hrs]
    rfl

/-- A written record has at least the bytes of its fields, so it pays for its round. -/
theorem length_le_flatMap_recordBytes (rs : List Record) : rs.length ≤ (rs.flatMap recordBytes).length := by
  induction rs with
  | nil => exact Nat.le_refl 0
  | cons r rs ih =>
    rw [List.flatMap_cons, List.length_append, List.length_cons, recordBytes_length]
    omega

/-- The loader on a container of records that fit and whatever follows them: the records are copied over the zeroed image, and
enough fuel is left for the rest of the stream. -/
theorem load_writeContainer_of_fits {W : Mode} {rs : List Record}
    (hfit : ∀ r ∈ rs, r.addr + r.payload.length ≤ W.memSize) (tail : List Byte) :
    ∃ fuel, tail.length ≤ fuel ∧
      load (writeContainer W rs ++ tail) = (loadRecords W fuel (rs.foldl writeRecord []) tail).map (W, ·) := by
  obtain ⟨extra, hextra⟩ := Nat.exists_eq_add_of_le (length_le_flatMap_recordBytes rs)
  have hfuel : (rs.flatMap recordBytes ++ tail).length = rs.length + (extra + tail.length) := by
    rw [List.length_append, hextra, Nat.add_assoc]
  refine ⟨extra + tail.length, Nat.le_add_left .., ?_⟩
  rw [load_writeContainer_append, hfuel, loadRecords_flatMap hfit]
  cases loadRecords W (extra + tail.length) (rs.foldl writeRecord []) tail <;> rfl

theorem load_writeContainer {W : Mode} {rs : List Record}
    (hfit : ∀ r ∈ rs, r.addr + r.payload.length ≤ W.memSize) :
    load (writeContainer W rs) = .ok (W, rs.foldl writeRecord []) := by
  obtain ⟨fuel, -, hload⟩ := load_writeContainer_of_fits hfit []
  rwa [List.append_nil, loadRecords_nil] at hload

/-! ### The image -/

theorem imageByte_of_uncovered {rs : List Record} {k : Nat} (h : rs.any (recordCovers k) = false) :
    imageByte rs k = 0x00#8 := by
  cases rs with
  | nil => rfl
  | cons r rs =>
    rw [List.any_cons, Bool.or_eq_false_iff] at h
    obtain ⟨hr, hrs⟩ := h
    simp [imageByte, hr, hrs]

/-- Copying records in order: the last one that covers an address decides its byte, an uncovered address keeps its byte (R191). -/
theorem read_foldl_writeRecord (rs : List Record) (m : Memory) (k : Nat) :
    (rs.foldl writeRecord m).read k = if rs.any (recordCovers k) then imageByte rs k else m.read k := by
  induction rs generalizing m with
  | nil => rfl
  | cons r rs ih =>
    have hone : (writeRecord m r).read k =
        if recordCovers k r then r.payload.getD (k - r.addr) 0x00#8 else m.read k := by
      simp only [writeRecord, Memory.read_writeBytes, recordCovers, decide_eq_true_eq]
    rw [List.foldl_cons, ih, hone, List.any_cons, imageByte]
    cases rs.any (recordCovers k) <;> cases recordCovers k r <;> rfl

/-- The image of records over zeroed memory (R188, U15). -/
theorem read_image (rs : List Record) (k : Nat) : (rs.foldl writeRecord []).read k = imageByte rs k := by
  rw [read_foldl_writeRecord]
  cases h : rs.any (recordCovers k) with
  | true => rfl
  | false => exact (imageByte_of_uncovered h).symm

/-! ### Load-and-reset -/

/-- A launch is a load and a start (R180). -/
theorem launch_eq_ok_iff {stream : List Byte} {s : State} :
    launch stream = .ok s ↔ ∃ W m, load stream = .ok (W, m) ∧ s = State.start W m := by
  unfold launch
  cases load stream with
  | error e => simp
  | ok image =>
    obtain ⟨W, m⟩ := image
    simp [eq_comm]

/-- A failed load is no launch (R166). -/
theorem launch_of_load_error {stream : List Byte} {e : LoadError} (h : load stream = .error e) :
    launch stream = .error e := by
  rw [launch, h]

/-- The loader's copies keep memory canonical and inside the image: the range check precedes each (R189). -/
theorem loadRecords_keeps {W : Mode} {fuel : Nat} {m image : Memory} {stream : List Byte} (hwf : m.wf = true)
    (hinside : m.inside W) (h : loadRecords W fuel m stream = .ok image) : image.wf = true ∧ image.inside W := by
  fun_induction loadRecords W fuel m stream with
  | case1 => cases h; exact ⟨hwf, hinside⟩
  | case2 | case3 | case4 | case5 => cases h
  | case6 m fuel b bs stream _ addr len rest hrange hlen ih =>
    refine ih (Memory.wf_writeBytes _ _ hwf) (Memory.inside_writeBytes _ _ hinside ?_) h
    rw [List.length_take_of_le (by omega)]
    omega

/-- A load that succeeds read the records over a zeroed image (R188). -/
theorem load_eq_ok {stream : List Byte} {W : Mode} {m : Memory} (h : load stream = .ok (W, m)) :
    ∃ rest, loadRecords W rest.length [] rest = .ok m := by
  unfold load at h
  split at h
  · next rest =>
    split at h
    · cases h
    · split at h
      · cases h
      · split at h
        · cases h
        · next hrecords => cases h; exact ⟨rest, hrecords⟩
  · cases h

/-- Every launched state meets the invariant. -/
theorem launch_inv {stream : List Byte} {s : State} (h : launch stream = .ok s) : s.Inv := by
  obtain ⟨W, m, hload, rfl⟩ := launch_eq_ok_iff.mp h
  obtain ⟨rest, hrecords⟩ := load_eq_ok hload
  obtain ⟨hwf, hinside⟩ := loadRecords_keeps (m := []) rfl nofun hrecords
  exact start_inv hwf hinside

/-- Settles O42: `State.start` holds the reset values, and the header of mode 12 alone loads nothing. -/
theorem launchIsLoadAndReset : Obligations.LaunchIsLoadAndReset :=
  ⟨fun _ _ => launch_eq_ok_iff, fun _ _ => launch_inv,
    launch_eq_ok_iff.mpr ⟨.w12, [], load_writeContainer (W := .w12) (rs := []) nofun, rfl⟩⟩

/-- Settles O38: the loader's copies make the image, and the launch starts from it. -/
theorem loadingAWrittenContainerGivesItsImage : Obligations.LoadingAWrittenContainerGivesItsImage := by
  intro W rs hfit
  have hload := load_writeContainer hfit
  have hlaunch := launch_eq_ok_iff.mpr ⟨W, _, hload, rfl⟩
  exact ⟨_, hload, read_image rs, hlaunch, launch_inv hlaunch⟩

/-! ### Loads that fail -/

theorem writeContainer_append (W : Mode) (before : List Record) (r : Record) (tail : List Byte) :
    writeContainer W (before ++ [r]) ++ tail = writeContainer W before ++ (recordBytes r ++ tail) := by
  simp [writeContainer]

/-- Settles O39: after the records that fit, the round of the long one fails its range check whatever follows. -/
theorem aRecordBeyondMemoryFailsTheLoad : Obligations.ARecordBeyondMemoryFailsTheLoad := by
  intro W before r tail hfit haddr hlen (hrange : W.memSize < r.addr + r.payload.length)
  suffices hload : load (writeContainer W (before ++ [r]) ++ tail) = .error .memoryRangeError from
    ⟨hload, launch_of_load_error hload⟩
  obtain ⟨fuel, hfuel, hload⟩ := load_writeContainer_of_fits hfit (recordBytes r ++ tail)
  rw [List.length_append, recordBytes_length] at hfuel
  obtain ⟨fuel, rfl⟩ := Nat.exists_eq_add_one_of_ne_zero (n := fuel) (by omega)
  rw [writeContainer_append, hload, loadRecords_recordBytes W fuel _ r tail haddr hlen, if_pos hrange]
  rfl

/-- A record cut after its fields is its fields and a part of its payload. -/
theorem take_recordBytes (r : Record) (n : Nat) :
    (recordBytes r).take (8 + n) = bigEndian32 r.addr ++ bigEndian32 r.payload.length ++ r.payload.take n := by
  have hfields : (bigEndian32 r.addr ++ bigEndian32 r.payload.length).length = 8 := by
    rw [List.length_append, bigEndian32_length, bigEndian32_length]
  rw [recordBytes, ← hfields, List.take_length_add_append]

/-- A cut inside a record that would fit leaves a partial record, whether it falls in the fields or in the payload (R190). -/
theorem loadRecords_take_recordBytes {W : Mode} {r : Record} {n : Nat}
    (hfit : r.addr + r.payload.length ≤ W.memSize) (hpos : 0 < n) (hn : n < (recordBytes r).length) (fuel : Nat)
    (m : Memory) : loadRecords W (fuel + 1) m ((recordBytes r).take n) = .error .ioError := by
  rcases Nat.lt_or_ge n 8 with hfields | hpayload
  · have hlen : ((recordBytes r).take n).length = n := List.length_take_of_le hn.le
    exact loadRecords_short W _ m (by rwa [hlen]) (by rwa [hlen])
  · obtain ⟨c, rfl⟩ := Nat.exists_eq_add_of_le hpayload
    obtain ⟨haddr, hplen⟩ := fields_lt_of_fits hfit
    rw [recordBytes_length] at hn
    have hcut : (r.payload.take c).length < r.payload.length := by rw [List.length_take]; omega
    rw [take_recordBytes, loadRecords_fields W fuel m haddr hplen, if_neg (Nat.not_lt.mpr hfit), if_pos hcut]

/-- Settles O40: after the records that fit, the loader meets the cut record. -/
theorem aTruncatedRecordFailsTheLoad : Obligations.ATruncatedRecordFailsTheLoad := by
  intro W before r n hbefore hfit hpos hn
  obtain ⟨fuel, hfuel, hload⟩ := load_writeContainer_of_fits hbefore ((recordBytes r).take n)
  rw [List.length_take_of_le hn.le] at hfuel
  obtain ⟨fuel, rfl⟩ := Nat.exists_eq_add_one_of_ne_zero (n := fuel) (by omega)
  rw [hload, loadRecords_take_recordBytes hfit hpos hn]
  rfl

/-! ### The header -/

theorem load_of_length_lt {stream : List Byte} (h : stream.length < 4) : load stream = .error .headerError := by
  match stream with
  | [] | [_] | [_, _] | [_, _, _] => rfl
  | _ :: _ :: _ :: _ :: _ => simp only [List.length_cons] at h; omega

theorem load_of_marker_mismatch {b₀ b₁ : Byte} (h : b₀ ≠ markerB ∨ b₁ ≠ markerE) (b₂ b₃ : Byte) (rest : List Byte) :
    load (b₀ :: b₁ :: b₂ :: b₃ :: rest) = .error .headerError := by
  rw [load, if_pos h]

theorem load_of_illegal_mode {b₂ : Byte} (h : b₂.toNat ∉ [4, 12, 20]) (b₃ : Byte) (rest : List Byte) :
    load (markerB :: markerE :: b₂ :: b₃ :: rest) = .error .addressWidthError := by
  rw [load, if_neg (by decide), Mode.ofNumber_eq_none h]

/-- A header alone loads an image that lists nothing; its last byte is not examined (D14). -/
theorem load_header (W : Mode) (b₃ : Byte) : load [markerB, markerE, BitVec.ofNat 8 W.width, b₃] = .ok (W, []) := by
  cases W <;> rfl

/-- Settles O41: the four laws above. -/
theorem headerChecksOfTheLoader : Obligations.HeaderChecksOfTheLoader :=
  ⟨fun _ => load_of_length_lt, fun _ _ b₂ b₃ rest h => load_of_marker_mismatch h b₂ b₃ rest,
    fun _ b₃ rest h => load_of_illegal_mode h b₃ rest, load_header⟩

/-! ### An assembled block -/

/-- Slot `n` of a payload starts at byte `n * B` (R88, R111). -/
theorem payload_getElem? {W : Mode} {l : Line} {n j : Nat} (lines : List Line) (hl : lines[n]? = some l)
    (hj : j < W.instrBytes) : (payload W lines)[n * W.instrBytes + j]? = (slot W l)[j]? := by
  induction lines generalizing n with
  | nil => simp at hl
  | cons first rest ih =>
    have hfirst := slot_length W first
    rw [payload, List.flatMap_cons]
    cases n with
    | zero =>
      obtain rfl : first = l := by simpa using hl
      rw [Nat.zero_mul, Nat.zero_add, List.getElem?_append_left (by omega)]
    | succ n =>
      have hrest : n * W.instrBytes + j + W.instrBytes - W.instrBytes = n * W.instrBytes + j := by omega
      rw [Nat.succ_mul, Nat.add_right_comm, List.getElem?_append_right (by omega), hfirst, hrest]
      exact ih (by simpa using hl)

/-- The image of one record holds its payload from its address on. -/
theorem imageByte_singleton_of_getElem? {r : Record} {i : Nat} {v : Byte} (h : r.payload[i]? = some v) :
    imageByte [r] (r.addr + i) = v := by
  obtain ⟨hi, rfl⟩ := List.getElem?_eq_some_iff.mp h
  simp [imageByte, recordCovers, hi]

/-- The image of one record is 0 outside its payload (U15). -/
theorem imageByte_singleton_of_outside {r : Record} {k : Nat} (h : k < r.addr ∨ r.addr + r.payload.length ≤ k) :
    imageByte [r] k = 0x00#8 := by
  apply imageByte_of_uncovered
  rw [List.any_cons, List.any_nil, Bool.or_false, recordCovers]
  exact decide_eq_false (by omega)

/-- Settles O47: the image of the block's one record, read slot by slot. -/
theorem anAssembledBlockLandsSlotBySlot : Obligations.AnAssembledBlockLandsSlotBySlot := by
  intro W b hfit
  have hlen : (blockRecord W b).payload.length = b.lines.length * W.instrBytes := payload_length W b.lines
  have hload := load_writeContainer (W := W) (rs := [blockRecord W b])
    (by rw [List.forall_mem_singleton, hlen]; exact hfit)
  refine ⟨_, hload, fun n l hl j hj => ?_, fun k hk => ?_⟩
  · have hslot := List.getElem?_eq_getElem (hj.trans_eq (slot_length W l).symm)
    have hbyte := (payload_getElem? b.lines hl hj).trans hslot
    rw [hslot, read_image, Nat.add_assoc]
    exact congrArg some (imageByte_singleton_of_getElem? (r := blockRecord W b) hbyte).symm
  · rw [read_image]
    exact imageByte_singleton_of_outside (by rwa [hlen])

end Sys2Proof.Machine
end

section
/-! SUPPORT. The words of the assembler's source: numeric literals in their three bases (R81), mnemonics (R83), segments (R82)
and comments (R87). Settles O43, O45, O48 and O50. -/

namespace Sys2Proof.Machine

/-! ### Literals -/

/-- No white space is a digit. -/
theorem isWhitespace_of_digitValue {c : Char} {v : Nat} (h : digitValue c = some v) : c.isWhitespace = false := by
  by_contra hspace
  rw [Bool.not_eq_false, Char.isWhitespace] at hspace
  simp only [Bool.or_eq_true, decide_eq_true_eq] at hspace
  rcases hspace with ((rfl | rfl) | rfl) | rfl <;> cases h

/-- A token without white space has nothing to trim (R81). -/
theorem trimSpace_of_no_space {cs : List Char} (h : ∀ c ∈ cs, c.isWhitespace = false) : trimSpace cs = cs := by
  have hkeep (l : List Char) (hl : ∀ c ∈ l, c.isWhitespace = false) : l.dropWhile Char.isWhitespace = l :=
    List.dropWhile_eq_self_iff.mpr fun hpos => by simp [hl _ (List.getElem_mem hpos)]
  rw [trimSpace, hkeep cs h, hkeep cs.reverse (by simpa using h), List.reverse_reverse]

/-- A token of decimal digits names no base: its characters are no letters (R81). -/
theorem literalBase_of_decimal {cs : List Char} (h : ∀ c ∈ cs, ∃ v < 10, digitValue c = some v) :
    literalBase cs = (10, cs) := by
  unfold literalBase
  split
  · next c ds =>
    obtain ⟨v, hv, hc⟩ := h c (by simp)
    rw [if_neg, if_neg]
    · rintro (rfl | rfl) <;> cases hc <;> omega
    · rintro (rfl | rfl) <;> cases hc
  · rfl

/-- The parser on a base's mark and a non-empty string of digits of that base: the exact value, if the limit admits it (R81, D20). -/
theorem parseLiteral_digits {α : Type} {base : Nat} {digit : α → Char} {value : α → Nat} {ds : List α} {mark : List Char}
    (hdigit : ∀ d, digitValue (digit d) = some (value d) ∧ value d < base) (hmark : ∀ c ∈ mark, c.isWhitespace = false)
    (hbase : literalBase (mark ++ ds.map digit) = (base, ds.map digit)) (hne : ds ≠ []) :
    parseLiteral (mark ++ ds.map digit) =
      if ds.foldl (fun v d => v * base + value d) 0 ≤ Config.literalMax
      then .ok (ds.foldl (fun v d => v * base + value d) 0) else .error .numberFormatError := by
  have hspace : ∀ c ∈ mark ++ ds.map digit, c.isWhitespace = false := by
    intro c hc
    rcases List.mem_append.mp hc with hc | hc
    · exact hmark c hc
    · obtain ⟨d, -, rfl⟩ := List.mem_map.mp hc
      exact isWhitespace_of_digitValue (hdigit d).1
  have hvalue := readDigits_map base digit value hdigit ds 0
  obtain ⟨d, rest, rfl⟩ := List.exists_cons_of_ne_nil hne
  rw [parseLiteral, trimSpace_of_no_space hspace, hbase]
  rw [List.map_cons] at hvalue ⊢
  simp only [hvalue]

theorem digitValue_decimal : ∀ d : Fin 10, digitValue (Char.ofNat (48 + d.val)) = some d.val ∧ d.val < 10 := by decide

theorem digitValue_binary : ∀ d : Fin 2, digitValue (Char.ofNat (48 + d.val)) = some d.val ∧ d.val < 2 := by decide

/-- A hexadecimal digit, in upper case when its flag says so. -/
theorem digitValue_hexadecimal : ∀ d : Fin 16 × Bool,
    digitValue (Char.ofNat (if d.1.val < 10 then 48 + d.1.val else if d.2 then 55 + d.1.val else 87 + d.1.val)) =
      some d.1.val ∧ d.1.val < 16 := by decide

/-- Decimal digits alone are a literal of base 10. -/
theorem parseLiteral_decimal {ds : List (Fin 10)} (hne : ds ≠ []) :
    parseLiteral (ds.map fun d => Char.ofNat (48 + d.val)) =
      if ds.foldl (fun v d => v * 10 + d.val) 0 ≤ Config.literalMax
      then .ok (ds.foldl (fun v d => v * 10 + d.val) 0) else .error .numberFormatError := by
  refine parseLiteral_digits (mark := []) digitValue_decimal nofun (literalBase_of_decimal fun c hc => ?_) hne
  obtain ⟨d, -, rfl⟩ := List.mem_map.mp hc
  exact ⟨d.val, d.isLt, (digitValue_decimal d).1⟩

/-- `0b` and `0B` select base 2 (R81). -/
theorem literalBase_binary {p : Char} (hp : p ∈ ['b', 'B']) (ds : List Char) : literalBase ('0' :: p :: ds) = (2, ds) := by
  simp only [List.mem_cons, List.not_mem_nil, or_false] at hp
  rcases hp with rfl | rfl <;> rfl

/-- `0x` and `0X` select base 16 (R81). -/
theorem literalBase_hexadecimal {p : Char} (hp : p ∈ ['x', 'X']) (ds : List Char) :
    literalBase ('0' :: p :: ds) = (16, ds) := by
  simp only [List.mem_cons, List.not_mem_nil, or_false] at hp
  rcases hp with rfl | rfl <;> rfl

/-- The mark of a base holds no white space. -/
theorem baseMark_no_space {p : Char} (hp : p ∈ ['b', 'B', 'x', 'X']) : ∀ c ∈ ['0', p], c.isWhitespace = false := by
  simp only [List.mem_cons, List.not_mem_nil, or_false] at hp
  rcases hp with rfl | rfl | rfl | rfl <;> simp [Char.isWhitespace]

/-- Settles O43: the three bases are instances of the parser's law; a decimal above the limit is its other branch. -/
theorem literalsAreReadInTheirBase : Obligations.LiteralsAreReadInTheirBase := by
  refine ⟨fun ds hne hmax => ?_, fun p ds hp hne hmax => ?_, fun p ds hp hne hmax => ?_, fun ds hmax => ?_,
    by decide, by decide, by decide, by decide⟩
  · exact (parseLiteral_decimal hne).trans (if_pos hmax)
  · exact (parseLiteral_digits (mark := ['0', p]) digitValue_binary
      (baseMark_no_space (List.mem_append_left ['x', 'X'] hp)) (literalBase_binary hp _) hne).trans (if_pos hmax)
  · exact (parseLiteral_digits (mark := ['0', p]) digitValue_hexadecimal
      (baseMark_no_space (List.mem_append_right ['b', 'B'] hp)) (literalBase_hexadecimal hp _) hne).trans (if_pos hmax)
  · have hne : ds ≠ [] := by rintro rfl; cases hmax
    exact (parseLiteral_decimal hne).trans (if_neg (Nat.not_le.mpr hmax))

/-! ### Mnemonics -/

/-- Lookup is that of the first three characters in upper case (R83). -/
theorem lookupMnemonic_congr {word word' : List Char}
    (h : (word.take 3).map Char.toUpper = (word'.take 3).map Char.toUpper) : lookupMnemonic word = lookupMnemonic word' := by
  rw [lookupMnemonic, h, lookupMnemonic]

/-- No mnemonic has two rows, so looking one up is finding its row. -/
theorem lookup_mnemonicTable {m : List Char} {op : Op} : mnemonicTable.lookup m = some op ↔ (m, op) ∈ mnemonicTable := by
  have hrow : ∀ e ∈ mnemonicTable, mnemonicTable.lookup e.1 = some e.2 := by decide
  refine ⟨fun h => ?_, hrow (m, op)⟩
  obtain ⟨before, after, htable, -⟩ := List.lookup_eq_some_iff.mp h
  rw [htable]
  simp

/-- Lookup succeeds exactly on the rows of the table (R83). -/
theorem lookupMnemonic_eq_ok_iff {word : List Char} {op : Op} :
    lookupMnemonic word = .ok op ↔ ((word.take 3).map Char.toUpper, op) ∈ mnemonicTable := by
  rw [← lookup_mnemonicTable, lookupMnemonic]
  cases mnemonicTable.lookup ((word.take 3).map Char.toUpper) <;> simp

/-- Every mnemonic has three characters, so a shorter segment matches none (D21). -/
theorem lookupMnemonic_of_length_lt {word : List Char} (h : word.length < 3) :
    lookupMnemonic word = .error .opcodeError := by
  have hthree : ∀ e ∈ mnemonicTable, e.1.length = 3 := by decide
  have hnone : mnemonicTable.lookup ((word.take 3).map Char.toUpper) = none := by
    rw [Option.eq_none_iff_forall_ne_some]
    intro op hop
    have := hthree _ (lookup_mnemonicTable.mp hop)
    simp only [List.length_map, List.length_take] at this
    omega
  rw [lookupMnemonic, hnone]

/-- Settles O45: lookup depends on the first three characters in upper case only, and the table's rows are its successes. -/
theorem mnemonicLookupUsesThreeCharactersInAnyCase : Obligations.MnemonicLookupUsesThreeCharactersInAnyCase := by
  refine ⟨fun word => lookupMnemonic_congr ?_, fun word rest h => lookupMnemonic_congr ?_,
    fun word => lookupMnemonic_of_length_lt, fun word op => ?_, by decide⟩
  · rw [← List.map_take, List.map_map]
    exact List.map_congr_left fun c _ => c.toUpper_toUpper_eq_toUpper
  · rw [List.take_append_of_le_length h]
  · rw [lookupMnemonic_eq_ok_iff]
    exact ⟨fun h => ⟨_, h, rfl⟩, fun ⟨_, h, hm⟩ => hm ▸ h⟩

/-! ### Segments -/

/-- The white space of the source (logs 11 and 23). -/
theorem isWhitespace_iff (c : Char) : c.isWhitespace = true ↔ c ∈ [' ', '\t', '\r', '\n'] := by
  simp [Char.isWhitespace, or_assoc]

/-- One white space character separates the segments before it from those after it (R82). -/
theorem segments_append_cons {c : Char} (hc : c.isWhitespace = true) (left right : List Char) :
    segments (left ++ c :: right) = segments left ++ segments right := by
  rw [segments, List.splitOnP_append_cons left right hc, List.filter_append, segments, segments]

/-- White space before a text adds no segment. -/
theorem segments_blank_append {blank : List Char} (h : ∀ c ∈ blank, c.isWhitespace = true) (right : List Char) :
    segments (blank ++ right) = segments right := by
  induction blank with
  | nil => rfl
  | cons c cs ih =>
    simp only [List.mem_cons, forall_eq_or_imp] at h
    obtain ⟨hc, hcs⟩ := h
    exact (segments_append_cons hc [] (cs ++ right)).trans (ih hcs)

/-- A non-empty text without white space is one segment. -/
theorem segments_word {word : List Char} (hne : word ≠ []) (h : ∀ c ∈ word, c.isWhitespace = false) :
    segments word = [word] := by
  rw [segments, List.splitOnP_eq_singleton h]
  simp [hne]

/-- Settles O48: a run of white space is its first character, which separates, and white space before what follows. -/
theorem segmentsAreTheWordsBetweenWhiteSpace : Obligations.SegmentsAreTheWordsBetweenWhiteSpace := by
  simp only [Obligations.SegmentsAreTheWordsBetweenWhiteSpace, ← isWhitespace_iff, Bool.not_eq_true]
  refine ⟨fun left blank right hne hblank => ?_, fun word => segments_word, segments_blank⟩
  obtain ⟨c, cs, rfl⟩ := List.exists_cons_of_ne_nil hne
  simp only [List.mem_cons, forall_eq_or_imp] at hblank
  obtain ⟨hc, hcs⟩ := hblank
  rw [List.append_assoc, List.cons_append, segments_append_cons hc, segments_blank_append hcs]

/-! ### Comments -/

/-- A text without `#` has no comment to strip (R87). -/
theorem stripComments_of_no_hash {source : List Char} (h : '#' ∉ source) : stripComments false source = source := by
  induction source with
  | nil => rfl
  | cons c cs ih =>
    rw [List.mem_cons, not_or] at h
    obtain ⟨hc, hcs⟩ := h
    simp [stripComments, ih hcs, Ne.symm hc]

/-- Inside a comment everything up to the newline is dropped (log 22). -/
theorem stripComments_inside {comment : List Char} (h : '\n' ∉ comment) (after : List Char) :
    stripComments true (comment ++ after) = stripComments true after := by
  induction comment with
  | nil => rfl
  | cons c cs ih =>
    rw [List.mem_cons, not_or] at h
    obtain ⟨hc, hcs⟩ := h
    simp [stripComments, ih hcs, Ne.symm hc]

/-- From `#` on, whether inside a comment already or not, a comment's characters are dropped (R87). -/
theorem stripComments_hash {comment : List Char} (h : '\n' ∉ comment) (inside : Bool) (after : List Char) :
    stripComments inside ('#' :: comment ++ after) = stripComments true after := by
  cases inside <;> simp [stripComments, stripComments_inside h]

/-- Ends of a text that are stripped alike, inside a comment and outside, are stripped alike after any beginning. -/
theorem stripComments_append_congr {t u : List Char} (h : ∀ inside, stripComments inside t = stripComments inside u)
    (before : List Char) (inside : Bool) : stripComments inside (before ++ t) = stripComments inside (before ++ u) := by
  induction before generalizing inside with
  | nil => exact h inside
  | cons c cs ih => simp only [List.cons_append, stripComments, ih]

/-- Settles O50: without `#` nothing is stripped; a comment and the newline after it are stripped to the newline, and a comment
at the end of the source to nothing. -/
theorem commentsDoNotChangeTheAssembly : Obligations.CommentsDoNotChangeTheAssembly := by
  refine ⟨fun source h => ?_, fun before comment after h => ?_, fun before comment h => ?_⟩
  · rw [assembleText, stripComments_of_no_hash h]
  · have hend (inside : Bool) : stripComments inside ('#' :: comment ++ '\n' :: after) =
        stripComments inside ('\n' :: after) := by
      rw [stripComments_hash h]
      cases inside <;> rfl
    rw [assembleText, assembleText, List.append_assoc, stripComments_append_congr hend before false]
  · have hend (inside : Bool) : stripComments inside ('#' :: comment) = stripComments inside [] := by
      have := stripComments_hash h inside []
      rw [List.append_nil] at this
      rw [this]
      cases inside <;> rfl
    rw [assembleText, assembleText, stripComments_append_congr hend before false, List.append_nil]

end Sys2Proof.Machine
end

section
/-! SUPPORT. Blocks of the source (R86): the reading of lines from tokens, and the tokens that a block's text is. Settles O46
and O49. -/

namespace Sys2Proof.Machine

/-! ### Lines of tokens -/

/-- A statement ended by `;` is the next line, and the reading goes on after it (R86). -/
theorem readLines_line {st : List (List Char)} {l : Line} (h : classifyLine st = .ok l) (more : Bool) (ts : List Token) :
    readLines [] more (st.map Token.word ++ .semicolon :: ts) =
      (readLines [] true ts).map fun r => (l :: r.1, r.2) := by
  rw [readLines_words, List.append_nil, readLines, List.reverse_reverse, h]
  cases readLines [] true ts <;> rfl

/-- A statement ended by `;` whose classification fails aborts the block with its error (R90). -/
theorem readLines_bad {st : List (List Char)} {e : AsmError} (h : classifyLine st = .error e) (more : Bool)
    (ts : List Token) : readLines [] more (st.map Token.word ++ .semicolon :: ts) = .error e := by
  rw [readLines_words, List.append_nil, readLines, List.reverse_reverse, h]

/-- A statement before the closing brace is the last line; it has a segment, since it classifies (R86). -/
theorem readLines_last {st : List (List Char)} {l : Line} (h : classifyLine st = .ok l) (more : Bool) (ts : List Token) :
    readLines [] more (st.map Token.word ++ .closeBrace :: ts) = .ok ([l], ts) := by
  have hne : st.reverse.isEmpty = false := by
    rw [List.isEmpty_reverse, List.isEmpty_eq_false_iff]
    rintro rfl
    cases h
  rw [readLines_words, List.append_nil, readLines, List.reverse_reverse, h, hne]
  rfl

/-- Lines separated by `;`, with or without one after the last, up to the closing brace (R86, C9). -/
theorem readLines_intersperse {stmts : List (List (List Char))} {lines : List Line}
    (h : List.Forall₂ (fun st l => classifyLine st = .ok l) stmts lines) (hne : stmts ≠ []) (more closed : Bool)
    (ts : List Token) :
    readLines [] more (((stmts.map fun st => st.map Token.word).intersperse [Token.semicolon]).flatten ++
      (if closed then [Token.semicolon] else []) ++ .closeBrace :: ts) = .ok (lines, ts) := by
  induction h generalizing more with
  | nil => exact absurd rfl hne
  | @cons st l stmts lines hst hstmts ih =>
    cases hstmts with
    | nil =>
      cases closed with
      | false => simpa using readLines_last hst more ts
      | true => simpa [readLines, Except.map] using readLines_line hst more (.closeBrace :: ts)
    | cons hst' hstmts' =>
      have hrest := ih (List.cons_ne_nil _ _) true
      rw [List.map_cons] at hrest
      rw [List.map_cons, List.map_cons, List.intersperse_cons_cons, List.flatten_cons, List.flatten_cons]
      simp only [List.append_assoc, List.cons_append, List.nil_append] at hrest ⊢
      rw [readLines_line hst, hrest]
      rfl

/-- Lines ended by `;`, and then one whose classification fails (R90). -/
theorem readLines_error {stmts : List (List (List Char))} {lines : List Line} {bad : List (List Char)} {e : AsmError}
    (h : List.Forall₂ (fun st l => classifyLine st = .ok l) stmts lines) (hbad : classifyLine bad = .error e)
    (more : Bool) (ts : List Token) :
    readLines [] more ((stmts.flatMap fun st => st.map Token.word ++ [Token.semicolon]) ++
      (bad.map Token.word ++ .semicolon :: ts)) = .error e := by
  induction h generalizing more with
  | nil => exact readLines_bad hbad more ts
  | cons hst _ ih =>
    simp only [List.flatMap_cons, List.append_assoc, List.cons_append, List.nil_append] at ih ⊢
    rw [readLines_line hst, ih]
    rfl

/-- A block is an address literal, an opening brace, and the lines after it (R86). -/
theorem readBlock_eq {w : List Char} {addr : Nat} (h : parseLiteral w = .ok addr) (body : List Token) :
    readBlock (.word w :: .openBrace :: body) =
      (readLines [] false body).map fun r => ({ addr := addr, lines := r.1 }, r.2) := by
  rw [readBlock, h]
  cases hbody : readLines [] false body <;> simp [hbody, Except.map]

/-- Settles O46: the address is read, and then the lines. -/
theorem aBlockIsReadLineByLine : Obligations.ABlockIsReadLineByLine := by
  intro w addr stmts lines closed rest haddr hne hstmts
  have hlines := readLines_intersperse hstmts hne false closed rest
  simp only [List.cons_append] at hlines ⊢
  rw [readBlock_eq haddr, hlines]
  rfl

/-! ### The tokens of a block's text -/

/-- The characters that are no delimiters (R82, R86). -/
theorem delimiterOf_eq_none_iff (c : Char) :
    delimiterOf c = none ↔ c ∉ [';', Char.ofNat 0x7B, Char.ofNat 0x7D] := by
  unfold delimiterOf openBraceChar closeBraceChar
  split_ifs <;> simp [*]

theorem delimiterOf_semicolon : delimiterOf ';' = some .semicolon := rfl

theorem delimiterOf_openBrace : delimiterOf (Char.ofNat 0x7B) = some .openBrace := rfl

theorem delimiterOf_closeBrace : delimiterOf (Char.ofNat 0x7D) = some .closeBrace := rfl

/-- Texts separated by `;` up to a delimiter are their words separated by that token (R82). -/
theorem tokenize_intersperse {stmts : List (List Char)} (h : ∀ st ∈ stmts, ∀ c ∈ st, delimiterOf c = none)
    (hne : stmts ≠ []) {c : Char} {d : Token} (hc : delimiterOf c = some d) (tail : List Char) :
    tokenize [] ((stmts.intersperse [';']).flatten ++ c :: tail) =
      ((stmts.map fun st => (segments st).map Token.word).intersperse [Token.semicolon]).flatten ++
        d :: tokenize [] tail := by
  induction stmts with
  | nil => exact absurd rfl hne
  | cons st stmts ih =>
    obtain ⟨hst, hstmts⟩ := List.forall_mem_cons.mp h
    cases stmts with
    | nil => simpa using tokenize_text st hst hc tail
    | cons st' stmts =>
      have hrest := ih hstmts (List.cons_ne_nil _ _)
      rw [List.map_cons] at hrest
      rw [List.map_cons, List.map_cons, List.intersperse_cons_cons, List.intersperse_cons_cons]
      simp only [List.flatten_cons, List.append_assoc, List.cons_append, List.nil_append]
      rw [tokenize_text st hst delimiterOf_semicolon, hrest]

/-- Texts each ended by `;` are their words each ended by that token (R82). -/
theorem tokenize_flatMap {stmts : List (List Char)} (h : ∀ st ∈ stmts, ∀ c ∈ st, delimiterOf c = none)
    (tail : List Char) :
    tokenize [] ((stmts.flatMap fun st => st ++ [';']) ++ tail) =
      (stmts.flatMap fun st => (segments st).map Token.word ++ [Token.semicolon]) ++ tokenize [] tail := by
  induction stmts with
  | nil => rfl
  | cons st stmts ih =>
    obtain ⟨hst, hstmts⟩ := List.forall_mem_cons.mp h
    simp only [List.flatMap_cons, List.append_assoc, List.cons_append, List.nil_append]
    rw [tokenize_text st hst delimiterOf_semicolon, ih hstmts]

/-- White space between a `;` and the closing brace leaves no token (C9, log 23). -/
theorem tokenize_blank_closeBrace {blank : List Char} (h : ∀ c ∈ blank, c.isWhitespace = true) (rest : List Char) :
    tokenize [] (blank ++ Char.ofNat 0x7D :: rest) = .closeBrace :: tokenize [] rest := by
  rw [tokenize_text blank (fun c hc => delimiterOf_blank (h c hc)) delimiterOf_closeBrace, segments_blank blank h]
  rfl

/-- The tokens of a block's lines and its closing brace: `;` and white space may stand before the brace (R86, C9). -/
theorem exists_tokenize_body {stmts : List (List Char)} {closing : List Char}
    (h : ∀ st ∈ stmts, ∀ c ∈ st, delimiterOf c = none) (hne : stmts ≠ [])
    (hclosing : closing = [] ∨ ∃ blank, closing = ';' :: blank ∧ ∀ c ∈ blank, c.isWhitespace = true) (rest : List Char) :
    ∃ closed : Bool, tokenize [] ((stmts.intersperse [';']).flatten ++ closing ++ Char.ofNat 0x7D :: rest) =
      ((stmts.map fun st => (segments st).map Token.word).intersperse [Token.semicolon]).flatten ++
        (if closed then [Token.semicolon] else []) ++ .closeBrace :: tokenize [] rest := by
  rcases hclosing with rfl | ⟨blank, rfl, hblank⟩
  · refine ⟨false, ?_⟩
    rw [List.append_nil, tokenize_intersperse h hne delimiterOf_closeBrace]
    simp
  · refine ⟨true, ?_⟩
    rw [List.append_assoc, List.cons_append, tokenize_intersperse h hne delimiterOf_semicolon,
      tokenize_blank_closeBrace hblank]
    simp

/-- The tokens of a block's address and opening brace (R86). -/
theorem tokenize_address {addrText w : List Char} (h : ∀ c ∈ addrText, delimiterOf c = none)
    (hw : segments addrText = [w]) (body : List Char) :
    tokenize [] (addrText ++ Char.ofNat 0x7B :: body) = .word w :: .openBrace :: tokenize [] body := by
  rw [tokenize_text addrText h delimiterOf_openBrace, hw]
  rfl

/-- Settles O49: the text's tokens are those of O46's block, the segments of each text being its statement; in the second
clause they are lines ended by `;` before the failing one. -/
theorem aLineIsTheTextBetweenSemicolons : Obligations.ALineIsTheTextBetweenSemicolons := by
  intro addrText w addr stmts lines rest hplain hw haddr hlines
  simp only [← delimiterOf_eq_none_iff, ← isWhitespace_iff] at hplain ⊢
  obtain ⟨haddrText, hstmts⟩ := List.forall_mem_cons.mp hplain
  have hsegments : List.Forall₂ (fun st l => classifyLine st = .ok l) (stmts.map segments) lines :=
    List.forall₂_map_left_iff.mpr hlines
  refine ⟨fun closing hne hclosing => ?_, fun bad e hbad herror => ?_⟩
  · obtain ⟨closed, hbody⟩ := exists_tokenize_body hstmts hne hclosing rest
    have hblock := aBlockIsReadLineByLine w addr (stmts.map segments) lines closed (tokenize [] rest) haddr
      (by simpa using hne) hsegments
    rw [List.map_map] at hblock
    simp only [List.append_assoc, List.cons_append] at hbody hblock ⊢
    rw [tokenize_address haddrText hw, hbody]
    exact hblock
  · have hread := readLines_error hsegments herror false (tokenize [] rest)
    rw [List.flatMap_map] at hread
    simp only [List.append_assoc, List.cons_append]
    rw [tokenize_address haddrText hw, tokenize_flatMap hstmts, tokenize_text bad hbad delimiterOf_semicolon,
      readBlock_eq haddr, hread]
    rfl

end Sys2Proof.Machine
end
